-- ==== Sys2Proof/Word.lean ====
section
/-! DEFINITION. The word type of the CORE: every register, memory cell and operand byte is one
unsigned 8-bit number (00 R1, section 5). -/

namespace Sys2Proof

/-- BYTE = 8 bits (00 R1). -/
abbrev Byte := BitVec 8

/-- A register index, 0 to 7: NREGS = 8 (00 R1, 10 R12). -/
abbrev RegIndex := Fin 8

end Sys2Proof
end

