-- ==== Sys2Proof/Syntax.lean ====
section
/-! DEFINITION. The instruction set as data: one constructor of Instr per row of spec/opcode_table.json
(30 R66), and the names the decoder answers with (30 R63). -/

namespace Sys2Proof

/-- A candidate operand byte as the eager fetch meets it (40 R83): the byte, or nothing when its
address lies above 255.  Only an instruction that consumes it can fault on the missing one (40 R84; log 22). -/
abbrev Candidate := Option Byte

/-- The bits of an ALU-routed word that do not select its operation (30 R64): bits 7 to 6 (the operand
count code) and bit 4 (ignored). -/
structure AluBits where
  nn : BitVec 2
  bit4 : Bool
  deriving DecidableEq, Repr

/-- The 32 instructions (30 R66).  `opa` and `opb` are the operand bytes the format consumes. -/
inductive Instr where
  | nop
  | hlt
  | ret
  | iret
  | push (opa : Candidate)
  | pop (opa : Candidate)
  | prn (opa : Candidate)
  | pra (opa : Candidate)
  | call (opa : Candidate)
  | jmp (opa : Candidate)
  | jeq (opa : Candidate)
  | jne (opa : Candidate)
  | jlt (opa : Candidate)
  | jle (opa : Candidate)
  | jge (opa : Candidate)
  | ldi (opa opb : Candidate)
  | ld (opa opb : Candidate)
  | add (v : AluBits) (opa opb : Candidate)
  | sub (v : AluBits) (opa opb : Candidate)
  | mul (v : AluBits) (opa opb : Candidate)
  | div (v : AluBits) (opa opb : Candidate)
  | mod (v : AluBits) (opa opb : Candidate)
  | inc (v : AluBits) (opa : Candidate)
  | dec (v : AluBits) (opa : Candidate)
  | cmp (v : AluBits) (opa opb : Candidate)
  | and (v : AluBits) (opa opb : Candidate)
  | not (v : AluBits) (opa : Candidate)
  | or (v : AluBits) (opa opb : Candidate)
  | xor (v : AluBits) (opa opb : Candidate)
  | shl (v : AluBits) (opa opb : Candidate)
  | shr (v : AluBits) (opa opb : Candidate)
  | st (v : AluBits) (opa opb : Candidate)
  deriving DecidableEq, Repr

/-- The 15 operations of the ALU (30 R68). -/
inductive AluOp where
  | add | sub | mul | div | mod | inc | dec | cmp | and | not | or | xor | shl | shr | st
  deriving DecidableEq, Repr

/-- The 17 direct instructions (30 R67). -/
inductive DirectOp where
  | nop | hlt | ret | iret | push | pop | prn | pra | call
  | jmp | jeq | jne | jlt | jle | jge | ldi | ld
  deriving DecidableEq, Repr

/-- The decoder's operation_id (30 R63). -/
inductive Operation where
  | alu (o : AluOp)
  | direct (o : DirectOp)
  deriving DecidableEq, Repr

/-- The decoder's output, the tuple (operand_count, is_alu_operation, operation_id) of 30 R63. -/
structure Decoded where
  n : Nat
  isAlu : Bool
  op : Operation
  deriving DecidableEq, Repr

/-- The decoder's rejections by name, the info of a DecodeError (30 R63, 60 R151): `alu` "unsupported
ALU operation", `direct` "unsupported instruction", each with the word. -/
inductive DecodeReject where
  | alu (ir : Byte)
  | direct (ir : Byte)
  deriving DecidableEq, Repr

end Sys2Proof
end

