-- ==== Sys2Proof/WellFormed.lean ====
section
/-! DEFINITION. When an instruction is one an assembler may write (30 R66, R72): every operand byte it consumes is
there, and a register operand names one of R0 to R7.  An ill-formed instruction still has its meaning, a fault
(40 R84, R85). -/

namespace Sys2Proof

/-- A register operand: present and 0 to 7 (30 R65). -/
def regOperandOk : Candidate → Bool
  | none => false
  | some v => decide (v.toNat < 8)

/-- LDI's immediate: present, any value 0 to 255 (30 R65). -/
def immOperandOk : Candidate → Bool
  | none => false
  | some _ => true

/-- Well-formedness by format (30 R66). -/
def Instr.wf : Instr → Bool
  | .nop | .hlt | .ret | .iret => true
  | .push a | .pop a | .prn a | .pra a | .call a => regOperandOk a
  | .jmp a | .jeq a | .jne a | .jlt a | .jle a | .jge a => regOperandOk a
  | .ldi a b => regOperandOk a && immOperandOk b
  | .ld a b => regOperandOk a && regOperandOk b
  | .inc _ a | .dec _ a | .not _ a => regOperandOk a
  | .add _ a b | .sub _ a b | .mul _ a b | .div _ a b | .mod _ a b | .cmp _ a b
  | .and _ a b | .or _ a b | .xor _ a b | .shl _ a b | .shr _ a b | .st _ a b =>
    regOperandOk a && regOperandOk b

end Sys2Proof
end

