-- ==== Sys2Proof/Decode.lean ====
section
/-! DEFINITION. The decoder, total on any bytes and rejecting by name (30 R60 to R68, R70), then the encoder written
from the same two tables. -/

namespace Sys2Proof

/-- The operand count from the count code, bits 7 to 6: 0, 1, 2, and 0b11 counts as 2 (30 R62). -/
def operandCount (nn : BitVec 2) : Nat :=
  if nn = 0b11#2 then 2 else nn.toNat

/-- ALU_TABLE, by the 4-bit sub-code (30 R68).  DESIGN CHOICE (the spec's D2, D3; log 5). -/
def aluTable : BitVec 4 → Option AluOp
  | 0b0000#4 => some .add
  | 0b0001#4 => some .sub
  | 0b0010#4 => some .mul
  | 0b0011#4 => some .div
  | 0b0100#4 => some .mod
  | 0b0101#4 => some .inc
  | 0b0110#4 => some .dec
  | 0b0111#4 => some .cmp
  | 0b1000#4 => some .and
  | 0b1001#4 => some .not
  | 0b1010#4 => some .or
  | 0b1011#4 => some .xor
  | 0b1100#4 => some .shl
  | 0b1101#4 => some .shr
  | 0b1110#4 => some .st
  | _ => none

/-- DIRECT_TABLE, matched on all 8 bits (30 R67).  DESIGN CHOICE but for LDI, PRN, HLT (the spec's D1; log 5). -/
def directTable : Byte → Option DirectOp
  | 0x00#8 => some .nop
  | 0x01#8 => some .hlt
  | 0x11#8 => some .ret
  | 0x13#8 => some .iret
  | 0x45#8 => some .push
  | 0x46#8 => some .pop
  | 0x47#8 => some .prn
  | 0x48#8 => some .pra
  | 0x50#8 => some .call
  | 0x54#8 => some .jmp
  | 0x55#8 => some .jeq
  | 0x56#8 => some .jne
  | 0x58#8 => some .jlt
  | 0x59#8 => some .jle
  | 0x5A#8 => some .jge
  | 0x82#8 => some .ldi
  | 0x83#8 => some .ld
  | _ => none

/-- The fields of an ALU-routed word that its match ignores (30 R61, R64). -/
def aluBits (ir : Byte) : AluBits :=
  { nn := ir.extractLsb' 6 2, bit4 := ir.getLsbD 4 }

/-- The decoder proper, a function of the one byte (30 R63). -/
def decodeWord (ir : Byte) : Except DecodeReject Decoded :=
  if ir.getLsbD 5 then
    match aluTable (ir.extractLsb' 0 4) with
    | some o => .ok { n := operandCount (ir.extractLsb' 6 2), isAlu := true, op := .alu o }
    | none => .error (.alu ir)
  else
    match directTable ir with
    | some o => .ok { n := operandCount (ir.extractLsb' 6 2), isAlu := false, op := .direct o }
    | none => .error (.direct ir)

/-- An ALU operation with the operand bytes its format consumes (30 R66; 40 R84 for aliases). -/
def aluInstr (o : AluOp) (v : AluBits) (opa opb : Candidate) : Instr :=
  match o with
  | .add => .add v opa opb
  | .sub => .sub v opa opb
  | .mul => .mul v opa opb
  | .div => .div v opa opb
  | .mod => .mod v opa opb
  | .inc => .inc v opa
  | .dec => .dec v opa
  | .cmp => .cmp v opa opb
  | .and => .and v opa opb
  | .not => .not v opa
  | .or => .or v opa opb
  | .xor => .xor v opa opb
  | .shl => .shl v opa opb
  | .shr => .shr v opa opb
  | .st => .st v opa opb

/-- A direct instruction with the operand bytes its format consumes (30 R66). -/
def directInstr (o : DirectOp) (opa opb : Candidate) : Instr :=
  match o with
  | .nop => .nop
  | .hlt => .hlt
  | .ret => .ret
  | .iret => .iret
  | .push => .push opa
  | .pop => .pop opa
  | .prn => .prn opa
  | .pra => .pra opa
  | .call => .call opa
  | .jmp => .jmp opa
  | .jeq => .jeq opa
  | .jne => .jne opa
  | .jlt => .jlt opa
  | .jle => .jle opa
  | .jge => .jge opa
  | .ldi => .ldi opa opb
  | .ld => .ld opa opb

/-- A word and its two candidate operand bytes, decoded (30 R63, 40 R83, R86). -/
def decode (ir : Byte) (opa opb : Candidate) : Except DecodeReject Instr :=
  match decodeWord ir with
  | .error e => .error e
  | .ok d =>
    match d.op with
    | .alu o => .ok (aluInstr o (aluBits ir) opa opb)
    | .direct o => .ok (directInstr o opa opb)

/-- An ALU-routed word, `NN 1 b CODE` (30 R61, R68). -/
def aluWord (code : BitVec 4) (v : AluBits) : Byte :=
  v.nn ++ 1#1 ++ BitVec.ofBool v.bit4 ++ code

/-- The opcode byte of an instruction (30 R67, R68). -/
def encodeWord : Instr → Byte
  | .nop => 0x00#8
  | .hlt => 0x01#8
  | .ret => 0x11#8
  | .iret => 0x13#8
  | .push _ => 0x45#8
  | .pop _ => 0x46#8
  | .prn _ => 0x47#8
  | .pra _ => 0x48#8
  | .call _ => 0x50#8
  | .jmp _ => 0x54#8
  | .jeq _ => 0x55#8
  | .jne _ => 0x56#8
  | .jlt _ => 0x58#8
  | .jle _ => 0x59#8
  | .jge _ => 0x5A#8
  | .ldi _ _ => 0x82#8
  | .ld _ _ => 0x83#8
  | .add v _ _ => aluWord 0b0000#4 v
  | .sub v _ _ => aluWord 0b0001#4 v
  | .mul v _ _ => aluWord 0b0010#4 v
  | .div v _ _ => aluWord 0b0011#4 v
  | .mod v _ _ => aluWord 0b0100#4 v
  | .inc v _ => aluWord 0b0101#4 v
  | .dec v _ => aluWord 0b0110#4 v
  | .cmp v _ _ => aluWord 0b0111#4 v
  | .and v _ _ => aluWord 0b1000#4 v
  | .not v _ => aluWord 0b1001#4 v
  | .or v _ _ => aluWord 0b1010#4 v
  | .xor v _ _ => aluWord 0b1011#4 v
  | .shl v _ _ => aluWord 0b1100#4 v
  | .shr v _ _ => aluWord 0b1101#4 v
  | .st v _ _ => aluWord 0b1110#4 v

/-- The operand bytes an instruction consumes, in order (30 R61, R66); all present when it is well-formed. -/
def operands : Instr → List Candidate
  | .nop | .hlt | .ret | .iret => []
  | .push a | .pop a | .prn a | .pra a | .call a => [a]
  | .jmp a | .jeq a | .jne a | .jlt a | .jle a | .jge a => [a]
  | .inc _ a | .dec _ a | .not _ a => [a]
  | .ldi a b | .ld a b => [a, b]
  | .add _ a b | .sub _ a b | .mul _ a b | .div _ a b | .mod _ a b | .cmp _ a b
  | .and _ a b | .or _ a b | .xor _ a b | .shl _ a b | .shr _ a b | .st _ a b => [a, b]

/-- The operand bytes as bytes. -/
def encodeOperands (i : Instr) : List Byte :=
  (operands i).reduceOption

/-- The bytes of a well-formed instruction, the word first (30 R60, 20 R41). -/
def encode (i : Instr) : List Byte :=
  encodeWord i :: encodeOperands i

/-- The operand count n of an instruction's word (30 R62, R67): what the sequential advance uses (40 R87). -/
def wordCount (i : Instr) : Nat :=
  operandCount ((encodeWord i).extractLsb' 6 2)

/-- Whether an instruction is ALU-routed (30 R66). -/
def isAluRouted : Instr → Bool
  | .nop | .hlt | .ret | .iret => false
  | .push _ | .pop _ | .prn _ | .pra _ | .call _ => false
  | .jmp _ | .jeq _ | .jne _ | .jlt _ | .jle _ | .jge _ => false
  | .ldi _ _ | .ld _ _ => false
  | .inc _ _ | .dec _ _ | .not _ _ => true
  | .add _ _ _ | .sub _ _ _ | .mul _ _ _ | .div _ _ _ | .mod _ _ _ | .cmp _ _ _
  | .and _ _ _ | .or _ _ _ | .xor _ _ _ | .shl _ _ _ | .shr _ _ _ | .st _ _ _ => true

/-- Byte k of an instruction whose first nbits bits are w, the rest zero: bits 7 to 0 are the word, the next
eight operand_a, the next eight operand_b (20 R41). -/
def tableByte (nbits w k : Nat) : Byte :=
  BitVec.ofNat 8 ((w % 2 ^ nbits) >>> (8 * k))

/-- The instruction the decoder reads from the opcode table's numbering of an instruction's bits. -/
def decodeTableWord (nbits w : Nat) : Option Instr :=
  match decode (tableByte nbits w 0) (some (tableByte nbits w 1)) (some (tableByte nbits w 2)) with
  | .ok i => some i
  | .error _ => none

end Sys2Proof
end

