-- ==== Sys2Proof/Config.lean ====
section
/-! DEFINITION. The CORE's fixed parameters (00 R1) and reset constants (10 R29).  Nothing here is a free
value: with the spec's decisions the step leaves no value open (93 section 1, last sentence). -/

namespace Sys2Proof.Config

/-- MEM_SIZE = 256 bytes, addresses 0 to 255 (00 R1). -/
def memSize : Nat := 256

/-- SP_INDEX = 7: register 7 is the stack pointer (00 R1, 10 R13). -/
def spIndex : RegIndex := 7

/-- SP_RESET = 0xF4 (00 R1). -/
def spReset : Byte := 0xF4#8

/-- PC_RESET = 0 (00 R1). -/
def pcReset : Nat := 0

/-- FL_RESET, the open parameter of 93 section 2 at its default 0x00.  DESIGN CHOICE (the spec's D7; log 7), unsafe. -/
def flReset : Byte := 0x00#8

/-- What a cell holds that nothing has written since reset: 0x00 (10 R29, 20 R46). -/
def memBackground : Byte := 0x00#8

end Sys2Proof.Config
end

