-- ==== Sys2Proof/Machine/State.lean ====
section
/-! DEFINITION. The architectural state, the six items of 10 R10 and nothing else, as plain data; the reset state
(10 R29); the reasons a step or a load can stop. -/

namespace Sys2Proof.Machine

/-- `mem` as (address, byte) pairs in one canonical form (Memory.wf in Ops.lean): an address that is not listed reads
0x00, the reset contents (10 R11, R29; log 4). -/
abbrev Memory := List Host.Cell

/-- The kind of an output event (10 R25): NUM from PRN, CHR from PRA. -/
inductive OutKind where
  | num
  | chr
  deriving DecidableEq, Repr

/-- One event of the output port (10 R24, R25). -/
structure OutEvent where
  kind : OutKind
  value : Byte
  deriving DecidableEq, Repr

/-- Which operation met a zero divisor (60 R151). -/
inductive DivOp where
  | div
  | mod
  deriving DecidableEq, Repr

/-- What was out of bounds (60 R151): a memory address above 255, or a register index above 7. -/
inductive OutOfBoundsInfo where
  | mem (a : Nat)
  | reg (v : Byte)
  deriving DecidableEq, Repr

/-- The fault record (E, info) of 60 R151. -/
inductive FaultRecord where
  | decodeError (info : DecodeReject)
  | divideByZero (info : DivOp)
  | outOfBounds (info : OutOfBoundsInfo)
  deriving DecidableEq, Repr

/-- The state of the execution loop (10 R20). -/
inductive RunState where
  | running
  | halted
  | faulted (r : FaultRecord)
  deriving DecidableEq, Repr

/-- The whole state (10 R10). -/
structure State where
  /-- 256 cells of 8 bits (10 R11). -/
  mem : Memory
  /-- The registers x[0] to x[7] (10 R12); x[7] is the stack pointer (10 R13). -/
  x : Vector Byte 8
  /-- The program counter, 0 to 258, which never wraps (10 R14, 00 R2; log 3). -/
  pc : Nat
  /-- The flags register FL: bit 0 = E, bit 1 = G, bit 2 = L (10 R16). -/
  fl : Byte
  /-- Running, Halted or Faulted (10 R20). -/
  run : RunState
  /-- The output events so far, oldest first (10 R24). -/
  out : List OutEvent
  deriving DecidableEq, Repr

/-- The state right after reset (10 R29, 70 R170). -/
def State.reset : State where
  mem := []
  x := #v[0x00#8, 0x00#8, 0x00#8, 0x00#8, 0x00#8, 0x00#8, 0x00#8, Config.spReset]
  pc := Config.pcReset
  fl := Config.flReset
  run := .running
  out := []

/-- Why there is no step.  A fault of the spec is NOT one of these: it is a next state whose `run` is Faulted
(60 R150; log 1). -/
inductive Fault where
  /-- Raised by `step` alone, when `run` is Halted: the CORE takes no step from it (10 R20, 40 R80).  Safe (log 2). -/
  | noStepHalted
  /-- Raised by `step` alone, when `run` is Faulted with this record: the CORE takes no step from it (10 R20, 40 R80).
  Safe (log 2). -/
  | noStepFaulted (r : FaultRecord)
  deriving DecidableEq, Repr

/-- What the model declines. -/
inductive Refusal where
  /-- For `exec` alone, an instruction without a meaning yet, by its mnemonic.  No arm answers it now.  Safe. -/
  | notModelled (mnemonic : String)
  /-- Raised by the host's load port alone, outside a run, with the first address above 255 the load would write
  (10 R26, 60 R154): the launch is refused.  Safe (log 20). -/
  | loadOutOfBounds (a : Nat)
  deriving DecidableEq, Repr

end Sys2Proof.Machine
end

