-- ==== Sys2Proof/Machine/Ops.lean ====
section
/-! DEFINITION. The named operations over memory, registers, the program counter, the stack and the output port, taking a
fault, and the return from interrupt beside it. -/

namespace Sys2Proof.Machine

/-- What a meaning answers. -/
abbrev Result := Host.Outcome State Fault Refusal

/-! ### Memory (20) -/

/-- `mem[a]`, with no check (00 section 5): the byte written last, or the background (20 R46). -/
def Memory.get : Memory → Nat → Byte
  | [], _ => Config.memBackground
  | (k, v) :: m, a => if a = k then v else Memory.get m a

/-- A new cell at its place in the rising order of addresses. -/
def Memory.insert : Memory → Nat → Byte → Memory
  | [], a, v => [(a, v)]
  | (k, w) :: m, a, v => if a < k then (a, v) :: (k, w) :: m else (k, w) :: Memory.insert m a v

/-- `mem[a] <- v`, with no check, in the canonical form: a cell at the background is not listed. -/
def Memory.set (m : Memory) (a : Nat) (v : Byte) : Memory :=
  if v = Config.memBackground then m.filter (fun c => c.1 ≠ a)
  else Memory.insert (m.filter (fun c => c.1 ≠ a)) a v

/-- The canonical form: addresses strictly rising, within 0 to 255, no cell listed at the background (log 4). -/
abbrev Memory.wf (m : Memory) : Prop :=
  m.Pairwise (fun c d => c.1 < d.1) ∧ ∀ c ∈ m, c.1 < Config.memSize ∧ c.2 ≠ Config.memBackground

/-- `mem[a]` of a state. -/
def State.byteAt (s : State) (a : Nat) : Byte := Memory.get s.mem a

/-- `mem[a] <- v` on a state. -/
def State.setByte (s : State) (a : Nat) (v : Byte) : State := { s with mem := Memory.set s.mem a v }

/-- `MemRead(a, 1)` (20 R44). -/
def memRead (a : Nat) (s : State) : Except FaultRecord Byte :=
  if a > 255 then .error (.outOfBounds (.mem a)) else .ok (s.byteAt a)

/-- `MemWrite(a, 1, v)` (20 R45). -/
def memWrite (a : Nat) (v : Byte) (s : State) : Except FaultRecord State :=
  if a > 255 then .error (.outOfBounds (.mem a)) else .ok (s.setByte a v)

/-- `MemRead` at an address held in a register: an 8-bit value is always in range (20 R47 (a)). -/
def State.load (s : State) (a : Byte) : Byte := s.byteAt a.toNat

/-- `MemWrite` at an address held in a register, always in range (20 R47 (a)). -/
def State.store (s : State) (a v : Byte) : State := s.setByte a.toNat v

/-! ### Registers (10 R12) -/

/-- `x[i]`. -/
def State.reg (s : State) (i : RegIndex) : Byte := s.x[i]

/-- `x[i] <- v`.  No register is hardwired (10 R12). -/
def State.setReg (s : State) (i : RegIndex) (v : Byte) : State := { s with x := s.x.set i v }

/-- The stack pointer x[7] (10 R13). -/
def State.sp (s : State) : Byte := s.reg Config.spIndex

/-- `x[7] <- v`. -/
def State.setSp (s : State) (v : Byte) : State := s.setReg Config.spIndex v

/-! ### Program counter (40 R87, R88) -/

/-- The sequential advance `pc <- pc + n + 1`, with no reduction modulo 256 (40 R87). -/
def State.advance (s : State) (n : Nat) : State := { s with pc := s.pc + n + 1 }

/-- `pc <- t` for an 8-bit target (40 R88, 43 R141). -/
def State.jump (s : State) (t : Byte) : State := { s with pc := t.toNat }

/-! ### Output port (10 R25) -/

/-- `Emit(kind, v)` (10 R25). -/
def State.emit (s : State) (k : OutKind) (v : Byte) : State := { s with out := s.out ++ [⟨k, v⟩] }

/-! ### Stack (20 R48, R49) -/

/-- `x[7] <- (x[7] - 1) mod 256`, the first half of Push (20 R48). -/
def State.spDown (s : State) : State := s.setSp (s.sp - 1)

/-- `x[7] <- (x[7] + 1) mod 256`, the second half of Pop (20 R49). -/
def State.spUp (s : State) : State := s.setSp (s.sp + 1)

/-- `Push(v)` (20 R48), its argument read after the decrement (42 R125; the spec's D13, log 14). -/
def State.push (s : State) (v : State → Byte) : State := s.spDown.store s.spDown.sp (v s.spDown)

/-- The byte `Pop()` answers (20 R49); `spUp` is what it does to the state. -/
def State.top (s : State) : Byte := s.load s.sp

/-! ### Taking a fault, and the return from interrupt (60 R150, 43 R139) -/

/-- `raise E(info)`: every effect of the step is discarded, so `s` is the state before the step, and `run` becomes
Faulted(E, info) (60 R150). -/
def raise (r : FaultRecord) (s : State) : Result := .next { s with run := .faulted r }

/-- `x[i] <- Pop()`. -/
def State.popReg (s : State) (i : RegIndex) : State := s.spUp.setReg i s.top

/-- `FL <- Pop()`, all 8 bits (43 R139). -/
def State.popFlags (s : State) : State := { s.spUp with fl := s.top }

/-- `pc <- Pop()` (43 R131, R139). -/
def State.popPc (s : State) : State := s.spUp.jump s.top

/-- The nine pops of IRET: x[6] down to x[0], then FL, then pc (43 R139; the spec's D15, log 16). -/
def State.popContext (s : State) : State :=
  (((((((s.popReg 6).popReg 5).popReg 4).popReg 3).popReg 2).popReg 1).popReg 0).popFlags.popPc

end Sys2Proof.Machine
end

