-- ==== Sys2Proof/Machine/Flags.lean ====
section
/-! DEFINITION. The flags register: its three bits (10 R16), what CMP computes (41 R108), and the conditions of the
conditional jumps (43 R133 to R138). -/

namespace Sys2Proof.Machine

/-- E, Equal: bit 0 of FL (10 R16). -/
def flagE (fl : Byte) : Bool := fl.getLsbD 0

/-- G, Greater-than: bit 1 of FL (10 R16). -/
def flagG (fl : Byte) : Bool := fl.getLsbD 1

/-- L, Less-than: bit 2 of FL (10 R16). -/
def flagL (fl : Byte) : Bool := fl.getLsbD 2

/-- What CMP writes to FL, all eight bits: the unsigned order of the two values (41 R108; the spec's D8, log 9). -/
def compareFlags (p q : Byte) : Byte :=
  if p = q then 0x01#8 else if p.toNat > q.toNat then 0x02#8 else 0x04#8

/-- JEQ fires (43 R133). -/
def jeqFires (fl : Byte) : Bool := flagE fl

/-- JNE fires (43 R134). -/
def jneFires (fl : Byte) : Bool := !flagE fl

/-- JGE fires (43 R135). -/
def jgeFires (fl : Byte) : Bool := flagE fl || flagG fl

/-- JLE fires (43 R136). -/
def jleFires (fl : Byte) : Bool := flagE fl || flagL fl

/-- JLT fires (43 R137). -/
def jltFires (fl : Byte) : Bool := flagL fl

end Sys2Proof.Machine
end

