-- ==== Sys2Proof/Machine/Operands.lean ====
section
/-! DEFINITION. Every operand form: the consumed byte (40 R84), the register index (40 R85), LDI's immediate
(30 R65), and the two- and one-register fetches of the formats (30 R66, 41 R100), in the order of 60 R156. -/

namespace Sys2Proof.Machine

/-- `Operand(k)`, consumed: the byte, or OutOfBounds(mem, pc + k) where memory has none there (40 R84). -/
def operand (k : Nat) (c : Candidate) (s : State) : Except FaultRecord Byte :=
  match c with
  | none => .error (.outOfBounds (.mem (s.pc + k)))
  | some v => .ok v

/-- `RegIdx(v)`: not masked to 3 bits (40 R85, 30 R65). -/
def regIdx (v : Byte) : Except FaultRecord RegIndex :=
  if h : v.toNat < 8 then .ok ⟨v.toNat, h⟩ else .error (.outOfBounds (.reg v))

/-- `RegIdx(Operand(k))` (41 R100). -/
def regOperand (k : Nat) (c : Candidate) (s : State) : Except FaultRecord RegIndex :=
  match operand k c s with
  | .error r => .error r
  | .ok v => regIdx v

/-- Raise what an operand raised, or go on with its value (40 R89). -/
def orRaise {α : Type} (e : Except FaultRecord α) (s : State) (f : α → Result) : Result :=
  match e with
  | .error r => raise r s
  | .ok a => f a

/-- Formats D1R and ALU1: one register operand (30 R66). -/
def withReg (opa : Candidate) (s : State) (f : RegIndex → Result) : Result :=
  orRaise (regOperand 1 opa s) s f

/-- Formats D2RR and ALU2: two register operands, the first one checked first (30 R66, 60 R156). -/
def withTwoRegs (opa opb : Candidate) (s : State) (f : RegIndex → RegIndex → Result) : Result :=
  orRaise (regOperand 1 opa s) s fun a => orRaise (regOperand 2 opb s) s fun b => f a b

/-- Format D2RI: a register, then an immediate with no check (30 R66, 42 R121). -/
def withRegImm (opa opb : Candidate) (s : State) (f : RegIndex → Byte → Result) : Result :=
  orRaise (regOperand 1 opa s) s fun a => orRaise (operand 2 opb s) s fun v => f a v

end Sys2Proof.Machine
end

