-- ==== Sys2Proof/Machine/Alu.lean ====
section
/-! DEFINITION. The 15 ALU-routed instructions (41).  Both sources are read from the state before the step, so `a = b` is
well defined, and each ends with `pc <- pc + n + 1`, n from the word's bits 7 to 6 (41 R100). -/

namespace Sys2Proof.Machine

/-- The end of an ALU operation that writes register a (41 R100). -/
def aluWrite (v : AluBits) (a : RegIndex) (r : Byte) (s : State) : Result :=
  .next ((s.setReg a r).advance (operandCount v.nn))

/-- ADD Ra,Rb: `x[a] <- (x[a] + x[b]) mod 256` (41 R101). -/
def execAdd (v : AluBits) (opa opb : Candidate) (s : State) : Result :=
  withTwoRegs opa opb s fun a b => aluWrite v a (s.reg a + s.reg b) s

/-- SUB Ra,Rb: `x[a] <- (x[a] - x[b]) mod 256` (41 R102). -/
def execSub (v : AluBits) (opa opb : Candidate) (s : State) : Result :=
  withTwoRegs opa opb s fun a b => aluWrite v a (s.reg a - s.reg b) s

/-- MUL Ra,Rb: `x[a] <- (x[a] * x[b]) mod 256` (41 R103). -/
def execMul (v : AluBits) (opa opb : Candidate) (s : State) : Result :=
  withTwoRegs opa opb s fun a b => aluWrite v a (s.reg a * s.reg b) s

/-- DIV Ra,Rb: `x[a] <- x[a] div x[b]`, unsigned; DivideByZero(DIV) when x[b] = 0 (41 R104, 60 R153). -/
def execDiv (v : AluBits) (opa opb : Candidate) (s : State) : Result :=
  withTwoRegs opa opb s fun a b =>
    if s.reg b = 0 then raise (.divideByZero .div) s else aluWrite v a (s.reg a / s.reg b) s

/-- MOD Ra,Rb: `x[a] <- x[a] mod x[b]`, unsigned; DivideByZero(MOD) when x[b] = 0 (41 R105, 60 R153). -/
def execMod (v : AluBits) (opa opb : Candidate) (s : State) : Result :=
  withTwoRegs opa opb s fun a b =>
    if s.reg b = 0 then raise (.divideByZero .mod) s else aluWrite v a (s.reg a % s.reg b) s

/-- INC Ra: `x[a] <- (x[a] + 1) mod 256` (41 R106). -/
def execInc (v : AluBits) (opa : Candidate) (s : State) : Result :=
  withReg opa s fun a => aluWrite v a (s.reg a + 1) s

/-- DEC Ra: `x[a] <- (x[a] - 1) mod 256` (41 R107). -/
def execDec (v : AluBits) (opa : Candidate) (s : State) : Result :=
  withReg opa s fun a => aluWrite v a (s.reg a - 1) s

/-- CMP Ra,Rb: all of FL is written, no register is (41 R108). -/
def execCmp (v : AluBits) (opa opb : Candidate) (s : State) : Result :=
  withTwoRegs opa opb s fun a b =>
    .next ({ s with fl := compareFlags (s.reg a) (s.reg b) }.advance (operandCount v.nn))

/-- AND Ra,Rb: `x[a] <- x[a] AND x[b]` (41 R109). -/
def execAnd (v : AluBits) (opa opb : Candidate) (s : State) : Result :=
  withTwoRegs opa opb s fun a b => aluWrite v a (s.reg a &&& s.reg b) s

/-- OR Ra,Rb: `x[a] <- x[a] OR x[b]` (41 R110). -/
def execOr (v : AluBits) (opa opb : Candidate) (s : State) : Result :=
  withTwoRegs opa opb s fun a b => aluWrite v a (s.reg a ||| s.reg b) s

/-- XOR Ra,Rb: `x[a] <- x[a] XOR x[b]` (41 R111). -/
def execXor (v : AluBits) (opa opb : Candidate) (s : State) : Result :=
  withTwoRegs opa opb s fun a b => aluWrite v a (s.reg a ^^^ s.reg b) s

/-- NOT Ra: `x[a] <- 255 - x[a]` (41 R112). -/
def execNot (v : AluBits) (opa : Candidate) (s : State) : Result :=
  withReg opa s fun a => aluWrite v a (~~~ s.reg a) s

/-- SHL Ra,Rb: `x[a] <- (x[a] * 2^x[b]) mod 256` (41 R113; the amount is not masked, D17, log 17). -/
def execShl (v : AluBits) (opa opb : Candidate) (s : State) : Result :=
  withTwoRegs opa opb s fun a b => aluWrite v a (s.reg a <<< s.reg b) s

/-- SHR Ra,Rb: `x[a] <- x[a] div 2^x[b]` (41 R114; logical, the amount is not masked, D17, log 17). -/
def execShr (v : AluBits) (opa opb : Candidate) (s : State) : Result :=
  withTwoRegs opa opb s fun a b => aluWrite v a (s.reg a >>> s.reg b) s

/-- ST Ra,Rb: `x[a] <- x[b]` (41 R115): a register copy, no memory access. -/
def execSt (v : AluBits) (opa opb : Candidate) (s : State) : Result :=
  withTwoRegs opa opb s fun a b => aluWrite v a (s.reg b) s

end Sys2Proof.Machine
end

