-- ==== Sys2Proof/Machine/Control.lean ====
section
/-! DEFINITION. The direct instructions for control transfer, interrupt return and halt (43).  An instruction that sets
`pc` does not also advance (40 R88). -/

namespace Sys2Proof.Machine

/-- CALL Ra: the return address pc + 2 must fit a byte, then it is pushed, then `pc <- x[r]` read after the push
(43 R130; D13, D14, log 14, 15). -/
def execCall (opa : Candidate) (s : State) : Result :=
  withReg opa s fun r =>
    if s.pc + 2 > 255 then raise (.outOfBounds (.mem (s.pc + 2))) s
    else
      let t := s.push fun d => BitVec.ofNat 8 (d.pc + 2)
      .next (t.jump (t.reg r))

/-- RET: `pc <- Pop()` (43 R131). -/
def execRet (s : State) : Result := .next s.popPc

/-- JMP Ra: `pc <- x[r]` (43 R132). -/
def execJmp (opa : Candidate) (s : State) : Result :=
  withReg opa s fun r => .next (s.jump (s.reg r))

/-- A conditional jump: its operand is consumed whether or not it fires (43 R133; D11, log 12). -/
def jumpIf (fires : Bool) (opa : Candidate) (s : State) : Result :=
  withReg opa s fun r => .next (if fires then s.jump (s.reg r) else s.advance 1)

/-- JEQ Ra (43 R133). -/
def execJeq (opa : Candidate) (s : State) : Result := jumpIf (jeqFires s.fl) opa s

/-- JNE Ra (43 R134). -/
def execJne (opa : Candidate) (s : State) : Result := jumpIf (jneFires s.fl) opa s

/-- JGE Ra (43 R135). -/
def execJge (opa : Candidate) (s : State) : Result := jumpIf (jgeFires s.fl) opa s

/-- JLE Ra (43 R136). -/
def execJle (opa : Candidate) (s : State) : Result := jumpIf (jleFires s.fl) opa s

/-- JLT Ra (43 R137). -/
def execJlt (opa : Candidate) (s : State) : Result := jumpIf (jltFires s.fl) opa s

/-- IRET: the nine pops (43 R139; D15, log 16). -/
def execIret (s : State) : Result := .next s.popContext

/-- HLT: `run <- Halted`, all else unchanged, `pc` among it (43 R140; D12, log 13). -/
def execHlt (s : State) : Result := .next { s with run := .halted }

end Sys2Proof.Machine
end

