-- ==== Sys2Proof/Machine/DataStackIo.lean ====
section
/-! DEFINITION. The direct instructions for data movement, stack and output (42); each ends with the sequential
advance. -/

namespace Sys2Proof.Machine

/-- NOP: `pc <- pc + 1` (42 R120). -/
def execNop (s : State) : Result := .next (s.advance 0)

/-- LDI Ra,value: `x[a] <- opb` (42 R121). -/
def execLdi (opa opb : Candidate) (s : State) : Result :=
  withRegImm opa opb s fun a v => .next ((s.setReg a v).advance 2)

/-- LD Ra,Rb: `x[a] <- MemRead(x[b], 1)`; the address is the content of register b (42 R122; D18, log 18). -/
def execLd (opa opb : Candidate) (s : State) : Result :=
  withTwoRegs opa opb s fun a b => .next ((s.setReg a (s.load (s.reg b))).advance 2)

/-- PRN Ra: `Emit(NUM, x[a])` (42 R123). -/
def execPrn (opa : Candidate) (s : State) : Result :=
  withReg opa s fun a => .next ((s.emit .num (s.reg a)).advance 1)

/-- PRA Ra: `Emit(CHR, x[a])` (42 R124). -/
def execPra (opa : Candidate) (s : State) : Result :=
  withReg opa s fun a => .next ((s.emit .chr (s.reg a)).advance 1)

/-- PUSH Ra: x[a] is read after the decrement (42 R125; D13, log 14). -/
def execPush (opa : Candidate) (s : State) : Result :=
  withReg opa s fun a => .next ((s.push fun d => d.reg a).advance 1)

/-- POP Ra: the increment uses x[7] as it is after the load of x[a] (42 R126; D13, log 14). -/
def execPop (opa : Candidate) (s : State) : Result :=
  withReg opa s fun a => .next ((s.setReg a s.top).spUp.advance 1)

end Sys2Proof.Machine
end

