-- ==== Sys2Proof/Machine/Dispatch.lean ====
section
/-! DEFINITION. EXECUTE: exactly one instruction rule runs per step (40 R86). -/

namespace Sys2Proof.Machine

/-- The meaning of each instruction; every arm is one call of it. -/
def exec (i : Instr) (s : State) : Host.Outcome State Fault Refusal :=
  match i with
  | .nop => Sys2Proof.Machine.execNop s
  | .hlt => Sys2Proof.Machine.execHlt s
  | .ret => Sys2Proof.Machine.execRet s
  | .iret => Sys2Proof.Machine.execIret s
  | .push opa => Sys2Proof.Machine.execPush opa s
  | .pop opa => Sys2Proof.Machine.execPop opa s
  | .prn opa => Sys2Proof.Machine.execPrn opa s
  | .pra opa => Sys2Proof.Machine.execPra opa s
  | .call opa => Sys2Proof.Machine.execCall opa s
  | .jmp opa => Sys2Proof.Machine.execJmp opa s
  | .jeq opa => Sys2Proof.Machine.execJeq opa s
  | .jne opa => Sys2Proof.Machine.execJne opa s
  | .jlt opa => Sys2Proof.Machine.execJlt opa s
  | .jle opa => Sys2Proof.Machine.execJle opa s
  | .jge opa => Sys2Proof.Machine.execJge opa s
  | .ldi opa opb => Sys2Proof.Machine.execLdi opa opb s
  | .ld opa opb => Sys2Proof.Machine.execLd opa opb s
  | .add v opa opb => Sys2Proof.Machine.execAdd v opa opb s
  | .sub v opa opb => Sys2Proof.Machine.execSub v opa opb s
  | .mul v opa opb => Sys2Proof.Machine.execMul v opa opb s
  | .div v opa opb => Sys2Proof.Machine.execDiv v opa opb s
  | .mod v opa opb => Sys2Proof.Machine.execMod v opa opb s
  | .inc v opa => Sys2Proof.Machine.execInc v opa s
  | .dec v opa => Sys2Proof.Machine.execDec v opa s
  | .cmp v opa opb => Sys2Proof.Machine.execCmp v opa opb s
  | .and v opa opb => Sys2Proof.Machine.execAnd v opa opb s
  | .not v opa => Sys2Proof.Machine.execNot v opa s
  | .or v opa opb => Sys2Proof.Machine.execOr v opa opb s
  | .xor v opa opb => Sys2Proof.Machine.execXor v opa opb s
  | .shl v opa opb => Sys2Proof.Machine.execShl v opa opb s
  | .shr v opa opb => Sys2Proof.Machine.execShr v opa opb s
  | .st v opa opb => Sys2Proof.Machine.execSt v opa opb s

end Sys2Proof.Machine
end

