-- ==== Sys2Proof/Machine/Fetch.lean ====
section
/-! DEFINITION. FETCH and DECODE of a step (40 R82, R83, R86). -/

namespace Sys2Proof.Machine

/-- The candidate operand byte at `pc + k`: nothing above address 255, which is no fault yet (40 R83). -/
def candidate (k : Nat) (s : State) : Candidate :=
  if s.pc + k > 255 then none else some (s.byteAt (s.pc + k))

/-- The instruction at `pc`, or the fault of its fetch or of its decoding (40 R82, R86). -/
def fetchDecode (s : State) : Except FaultRecord Instr :=
  match memRead s.pc s with
  | .error r => .error r
  | .ok ir =>
    match decode ir (candidate 1 s) (candidate 2 s) with
    | .error e => .error (.decodeError e)
    | .ok i => .ok i

/-- One byte of an instruction put where the fetch at `pc` reads it, if memory has a cell there. -/
def placeByte (s : State) (k : Nat) (v : Byte) : State :=
  if s.pc + k > 255 then s else s.setByte (s.pc + k) v

end Sys2Proof.Machine
end

