-- ==== Sys2Proof/Machine/Step.lean ====
section
/-! DEFINITION. The step (40 R89), and the placing of an instruction where the next step fetches it. -/

namespace Sys2Proof.Machine

/-- One step: it exists exactly when `run` is Running (40 R80, R89); a fault of fetch or decode is taken like any other
(60 R150). -/
def step (s : State) : Host.Outcome State Fault Refusal :=
  match s.run with
  | .running =>
    match fetchDecode s with
    | .error r => raise r s
    | .ok i => exec i s
  | .halted => .fault .noStepHalted
  | .faulted r => .fault (.noStepFaulted r)

/-- The instruction whose first `nbits` bits are `w`, its other operand bytes zero, placed at `pc`, `pc + 1`, `pc + 2`:
it stands for the host's load (10 R26, 70 R172; log 23). -/
def State.withFetchWord (s : State) (nbits w : Nat) : State :=
  placeByte (placeByte (placeByte s 0 (tableByte nbits w 0)) 1 (tableByte nbits w 1)) 2 (tableByte nbits w 2)

end Sys2Proof.Machine
end

