-- ==== Sys2Proof/Machine/Ports.lean ====
section
/-! DEFINITION. What the host can do outside a step: reset, load, launch, let the CORE run, the trace and the status port
(10 R26 to R28, 40 R90, 70 R170 to R172).  None of it is an agent during a run (40 R80). -/

namespace Sys2Proof.Machine

/-- Reset: every piece of state at its reset value, nothing survives; the only way out of Halted and Faulted
(70 R170). -/
def hostReset (_ : State) : State := State.reset

/-- The writes of a load: byte i goes to address + i (10 R26). -/
def loadBytes : List Byte → Nat → State → State
  | [], _, s => s
  | v :: vs, a, s => loadBytes vs (a + 1) (s.setByte a v)

/-- `load(bytes, address)`: writes `mem` only; refused when address + len(bytes) > 256 (10 R26; D20, log 20). -/
def hostLoad (bytes : List Byte) (address : Nat) (s : State) : Result :=
  if address + bytes.length > 256 then .refused (.loadOutOfBounds (max address 256))
  else .next (loadBytes bytes address s)

/-- The loads of a launch, in order; one that is refused refuses the launch (10 R26). -/
def loadAll : List (List Byte × Nat) → State → Result
  | [], s => .next s
  | (bytes, address) :: rest, s =>
    match hostLoad bytes address s with
    | .next t => loadAll rest t
    | .fault r => .fault r
    | .refused r => .refused r

/-- The launch state of a run: reset, then zero or more loads (70 R172). -/
def launch (loads : List (List Byte × Nat)) : Result := loadAll loads State.reset

/-- The run, under fuel: steps while `run` is Running, for ever if it stays so (40 R90; the spec's D27). -/
def runFor : Nat → State → Result
  | 0, s => .next s
  | k + 1, s =>
    match s.run with
    | .running =>
      match step s with
      | .next t => runFor k t
      | .fault r => .fault r
      | .refused r => .refused r
    | .halted => .next s
    | .faulted _ => .next s

/-- What the trace port shows (10 R27). -/
structure Snapshot where
  pc : Nat
  mem0 : Byte
  mem1 : Byte
  mem2 : Byte
  x : Vector Byte 8
  deriving DecidableEq, Repr

/-- One byte of the snapshot; above address 255 the spec fixes no value (91 N7), so it is whatever `beyond` says
(log 21). -/
def traceByte (beyond : Nat → Byte) (s : State) (a : Nat) : Byte :=
  if a > 255 then beyond a else s.byteAt a

/-- The trace port, read-only (10 R27).  `beyond` is any function: a claim about it holds for every one. -/
def trace (beyond : Nat → Byte) (s : State) : Snapshot :=
  { pc := s.pc, mem0 := traceByte beyond s s.pc, mem1 := traceByte beyond s (s.pc + 1),
    mem2 := traceByte beyond s (s.pc + 2), x := s.x }

/-- The status port (10 R28). -/
def status (s : State) : RunState := s.run

end Sys2Proof.Machine
end

