-- ==== Sys2Proof/Safety.lean ====
section
/-! DEFINITION. What a good state is, and the words the statements are written in: what stays the same, what it is to
raise a fault, and what each format does with its operands. -/

namespace Sys2Proof

open Sys2Proof.Machine

/-! ### Good states -/

/-- The info of a fault record is one the spec lists (60 R151). -/
def FaultRecordLegal : FaultRecord → Prop
  | .decodeError (.alu ir) => decodeWord ir = .error (.alu ir)
  | .decodeError (.direct ir) => decodeWord ir = .error (.direct ir)
  | .divideByZero _ => True
  | .outOfBounds (.mem a) => 256 ≤ a ∧ a ≤ 258
  | .outOfBounds (.reg v) => 8 ≤ v.toNat

/-- The invariant of the machine: memory in its canonical form, `pc` in its range (10 R14), a halted CORE stands at an HLT
word (43 R140), and a faulted one carries a record of the spec's list (60 R151). -/
structure GoodState (s : State) : Prop where
  memWf : Memory.wf s.mem
  pcRange : s.pc ≤ 258
  haltedAtHlt : s.run = .halted → s.pc ≤ 255 ∧ s.byteAt s.pc = 0x01#8
  faultLegal : ∀ r, s.run = .faulted r → FaultRecordLegal r

/-- The run has ended successfully (40 R91). -/
def EndedWell (s : State) : Prop := s.run = .halted

/-- The run has ended in a fault: it went wrong (40 R91). -/
def EndedWrong (s : State) : Prop := ∃ r, s.run = .faulted r

/-! ### What stays the same -/

/-- Every byte of memory reads as before. -/
def SameMemory (s t : State) : Prop := ∀ a, t.byteAt a = s.byteAt a

/-- Every byte of memory but the one at `k` reads as before. -/
def SameMemoryBut (k : Nat) (s t : State) : Prop := ∀ a, a ≠ k → t.byteAt a = s.byteAt a

/-- Every register but those of the list is as before. -/
def SameRegsBut (ds : List RegIndex) (s t : State) : Prop := ∀ i, i ∉ ds → t.reg i = s.reg i

/-- FL, `out` and `run` are as before. -/
def SameRest (s t : State) : Prop := t.fl = s.fl ∧ t.out = s.out ∧ t.run = s.run

/-! ### Operands -/

/-- The operand byte that names register a (30 R72). -/
def regByte (a : RegIndex) : Byte := BitVec.ofNat 8 a.val

/-- The operand that names register a, fetched. -/
def regOp (a : RegIndex) : Candidate := some (regByte a)

/-- The instruction raises this fault and does nothing else (60 R150). -/
def Raises (i : Instr) (s : State) (r : FaultRecord) : Prop :=
  exec i s = .next { s with run := .faulted r }

/-- The faults of a first operand that is a register (40 R84, R85): the byte is not there, or it is above 7. -/
def FaultsOnFirst (mk : Candidate → Instr) : Prop :=
  ∀ s : State,
    Raises (mk none) s (.outOfBounds (.mem (s.pc + 1))) ∧
    ∀ v : Byte, 7 < v.toNat → Raises (mk (some v)) s (.outOfBounds (.reg v))

/-- The faults of two operands that are registers, the first one checked first (60 R156). -/
def FaultsOnBoth (mk : Candidate → Candidate → Instr) : Prop :=
  (∀ opb, FaultsOnFirst fun opa => mk opa opb) ∧
  ∀ a : RegIndex, ∀ s : State,
    Raises (mk (regOp a) none) s (.outOfBounds (.mem (s.pc + 2))) ∧
    ∀ v : Byte, 7 < v.toNat → Raises (mk (regOp a) (some v)) s (.outOfBounds (.reg v))

/-- The instruction raises OutOfBounds for a memory address. -/
def StopsOnAddress (i : Instr) (s : State) : Prop :=
  ∃ t a, exec i s = .next t ∧ t.run = .faulted (.outOfBounds (.mem a))

/-- The instruction raises OutOfBounds for a register index. -/
def StopsOnIndex (i : Instr) (s : State) : Prop :=
  ∃ t v, exec i s = .next t ∧ t.run = .faulted (.outOfBounds (.reg v))

/-- The exceptions of a rule with one register operand: that they happen, in the words of 41 R101 and R106.  What the
state is then is D9 and a statement of its own. -/
def StopsOnOne (mk : Candidate → Instr) : Prop :=
  ∀ s : State, StopsOnAddress (mk none) s ∧ ∀ v : Byte, 7 < v.toNat → StopsOnIndex (mk (some v)) s

/-- The exceptions of a rule with two register operands, likewise.  Where an index is bad and a byte is missing the rule
does not say which is reported (D10 does). -/
def StopsOnTwo (mk : Candidate → Candidate → Instr) : Prop :=
  ∀ s : State,
    (∀ opb, StopsOnAddress (mk none opb) s) ∧
    (∀ v : Byte, v.toNat ≤ 7 → StopsOnAddress (mk (some v) none) s) ∧
    (∀ v : Byte, 7 < v.toNat → StopsOnAddress (mk (some v) none) s ∨ StopsOnIndex (mk (some v) none) s) ∧
    ∀ v w : Byte, 7 < v.toNat ∨ 7 < w.toNat → StopsOnIndex (mk (some v) (some w)) s

/-! ### What an instruction does -/

/-- It completes: register a takes the value r, `pc` advances by n + 1, all else is as before. -/
def WritesReg (i : Instr) (a : RegIndex) (r n : Nat) (s : State) : Prop :=
  ∃ t, exec i s = .next t ∧ (t.reg a).toNat = r ∧ t.pc = s.pc + n + 1 ∧
    SameRegsBut [a] s t ∧ SameMemory s t ∧ SameRest s t

/-- A binary ALU operation: x[a] becomes f x[a] x[b] in every form, whatever the word's unmatched bits. -/
def BinaryOp (mk : AluBits → Candidate → Candidate → Instr) (f : Nat → Nat → Nat) : Prop :=
  ∀ v : AluBits,
    (∀ (a b : RegIndex) (s : State), WritesReg (mk v (regOp a) (regOp b)) a
      (f (s.reg a).toNat (s.reg b).toNat) (operandCount v.nn) s) ∧
    StopsOnTwo (mk v)

/-- A unary ALU operation: x[a] becomes f x[a]. -/
def UnaryOp (mk : AluBits → Candidate → Instr) (f : Nat → Nat) : Prop :=
  ∀ v : AluBits,
    (∀ (a : RegIndex) (s : State), WritesReg (mk v (regOp a)) a
      (f (s.reg a).toNat) (operandCount v.nn) s) ∧
    StopsOnOne (mk v)

/-- A division: f where the divisor is not zero, DivideByZero where it is, after the operand checks (60 R153, R156). -/
def DivisionOp (mk : AluBits → Candidate → Candidate → Instr) (f : Nat → Nat → Nat) (o : DivOp) : Prop :=
  ∀ v : AluBits,
    (∀ (a b : RegIndex) (s : State), s.reg b ≠ 0 → WritesReg (mk v (regOp a) (regOp b)) a
      (f (s.reg a).toNat (s.reg b).toNat) (operandCount v.nn) s) ∧
    (∀ (a b : RegIndex) (s : State), s.reg b = 0 →
      Raises (mk v (regOp a) (regOp b)) s (.divideByZero o)) ∧
    FaultsOnBoth (mk v)

/-- A jump on a condition of FL: to x[r], or on by 2; nothing but `pc` changes; the operand is checked either way. -/
def JumpsWhen (mk : Candidate → Instr) (fires : Byte → Prop) : Prop :=
  (∀ (r : RegIndex) (s : State), ∃ t, exec (mk (regOp r)) s = .next t ∧
    (fires s.fl → t.pc = (s.reg r).toNat) ∧ (¬ fires s.fl → t.pc = s.pc + 2) ∧
    SameRegsBut [] s t ∧ SameMemory s t ∧ SameRest s t) ∧
  FaultsOnFirst mk

/-- A jump reads the bit of FL that the mask names: set alone or not set at all, it decides where the jump goes, unless the
target is the next instruction anyway. -/
def ReadsFlag (mk : Candidate → Instr) (mask : Byte) : Prop :=
  ∀ (r : RegIndex) (s : State), (s.reg r).toNat ≠ s.pc + 2 →
    ∃ t t', exec (mk (regOp r)) { s with fl := 0x00#8 } = .next t ∧
      exec (mk (regOp r)) { s with fl := mask } = .next t' ∧ t.pc ≠ t'.pc

/-- An output instruction: one event at the end of `out`, nothing else but the advance. -/
def Emits (mk : Candidate → Instr) (k : OutKind) : Prop :=
  (∀ (a : RegIndex) (s : State), ∃ t, exec (mk (regOp a)) s = .next t ∧
    t.out = s.out ++ [⟨k, s.reg a⟩] ∧ t.pc = s.pc + 2 ∧
    SameRegsBut [] s t ∧ SameMemory s t ∧ t.fl = s.fl ∧ t.run = s.run) ∧
  FaultsOnFirst mk

/-! ### Where the step goes on to the next word -/

/-- Memory as `s` had it, but for the byte v at k. -/
def byteWith (s : State) (k : Nat) (v : Byte) (a : Nat) : Byte := if a = k then v else s.byteAt a

/-- `t`, reached from `s` by a write of v at k, is Running, and its step decodes the memory of `s` with that byte in it: the
word at `pc` and the two candidate operands (20 R56). -/
def NextFetchSees (s t : State) (k : Nat) (v : Byte) : Prop :=
  t.run = .running ∧
  (t.pc ≤ 255 →
    (∀ e, decodeWord (byteWith s k v t.pc) = .error e →
      ∃ u, step t = .next u ∧ u.run = .faulted (.decodeError e)) ∧
    (∀ i, decode (byteWith s k v t.pc) (if t.pc + 1 ≤ 255 then some (byteWith s k v (t.pc + 1)) else none)
        (if t.pc + 2 ≤ 255 then some (byteWith s k v (t.pc + 2)) else none) = .ok i →
      step t = exec i t))

/-- The instruction ends with the sequential advance (40 R87): it is ALU-routed, or it is a direct one that does not set
`pc`, a conditional jump that does not fire among them. -/
def AdvancesSequentially (i : Instr) (s : State) : Prop :=
  isAluRouted i = true ∨ i = .nop ∨ (∃ a b, i = .ldi a b) ∨ (∃ a b, i = .ld a b) ∨
    (∃ a, i = .prn a ∨ i = .pra a ∨ i = .push a ∨ i = .pop a ∨
      (i = .jeq a ∧ s.fl.getLsbD 0 = false) ∨ (i = .jne a ∧ s.fl.getLsbD 0 = true) ∨
      (i = .jge a ∧ s.fl.getLsbD 0 = false ∧ s.fl.getLsbD 1 = false) ∨
      (i = .jle a ∧ s.fl.getLsbD 0 = false ∧ s.fl.getLsbD 2 = false) ∨
      (i = .jlt a ∧ s.fl.getLsbD 2 = false))

end Sys2Proof
end

