-- ==== Sys2Proof/Certificates/Slice0/Obligations.lean ====
section
/-! DEFINITION. The statements for the provers.  Each says which rule of spec/ it formalises, or, where it rests on a
decision the spec marks as its own (92), which decision and which entry of the assumption log. -/

open Sys2Proof Sys2Proof.Machine

/-! ### Reset, load, launch, ports -/

/-- 10 section 8: what reset leaves.  FL = 0x00 is the spec's own decision D7 (log 7). -/
def Obligations.ResetLeavesTheStatedValues : Prop :=
  ∀ s : State,
    (∀ a, (hostReset s).byteAt a = 0x00#8) ∧
    (∀ i : RegIndex, i ≠ 7 → (hostReset s).reg i = 0x00#8) ∧ ((hostReset s).reg 7).toNat = 0xF4 ∧
    (hostReset s).pc = 0 ∧ (hostReset s).fl = 0x00#8 ∧ (hostReset s).run = .running ∧ (hostReset s).out = []

/-- The invariant holds at reset. -/
def Obligations.GoodStateAtReset : Prop := GoodState State.reset

/-- 10 section 7, the load port: which bytes it writes, that it touches nothing else, when it is refused and with which
address, the first above 255 at or after the load's start.  The precondition and the refusal are the spec's own decision D20
(log 20). -/
def Obligations.LoadWritesItsBytesOnly : Prop :=
  ∀ (bytes : List Byte) (address : Nat) (s : State),
    (address + bytes.length ≤ 256 → ∃ t, hostLoad bytes address s = .next t ∧
      (∀ (k : Nat) (v : Byte), bytes[k]? = some v → t.byteAt (address + k) = v) ∧
      (∀ a, (a < address ∨ address + bytes.length ≤ a) → t.byteAt a = s.byteAt a) ∧
      t.x = s.x ∧ t.pc = s.pc ∧ t.fl = s.fl ∧ t.run = s.run ∧ t.out = s.out) ∧
    (256 < address + bytes.length → hostLoad bytes address s = .refused (.loadOutOfBounds (max address 256)))

/-- 70 R171: whatever the host loads and wherever, execution starts at address 0, through the bytes that lie there. -/
def Obligations.EntryPointIsAddressZero : Prop :=
  ∀ (loads : List (List Byte × Nat)) (s : State), launch loads = .next s →
    s.run = .running ∧ s.pc = 0 ∧
    (∀ i, decode (s.byteAt 0) (some (s.byteAt 1)) (some (s.byteAt 2)) = .ok i → step s = exec i s) ∧
    (∀ e, decodeWord (s.byteAt 0) = .error e →
      ∃ t, step s = .next t ∧ t.run = .faulted (.decodeError e))

/-- 70 sections 1 and 2: the launch state of a run is the reset state but for memory, and it meets the invariant. -/
def Obligations.LaunchIsResetButForMemory : Prop :=
  ∀ (loads : List (List Byte × Nat)) (s : State), launch loads = .next s →
    s = { State.reset with mem := s.mem } ∧ GoodState s

/-- 70 section 2, the unloaded program: NOPs from 0 to 256, then OutOfBounds(mem, 256).  It rests on NOP = 0x00, the
spec's own decision D1 (log 5), on D5 (log 3) and on D9 (log 10). -/
def Obligations.UnloadedProgramWalksOffTheEnd : Prop :=
  (∀ k : Nat, k ≤ 256 → (Host.Core.run core k State.reset : Result) = .next { State.reset with pc := k }) ∧
  (Host.Core.run core 257 State.reset : Result) =
    .next { State.reset with pc := 256, run := .faulted (.outOfBounds (.mem 256)) }

/-! ### Memory -/

/-- 20 R44. -/
def Obligations.MemReadIsChecked : Prop :=
  ∀ (a : Nat) (s : State),
    (255 < a → memRead a s = .error (.outOfBounds (.mem a))) ∧ (a ≤ 255 → memRead a s = .ok (s.byteAt a))

/-- 20 R45. -/
def Obligations.MemWriteIsCheckedAndLocal : Prop :=
  ∀ (a : Nat) (v : Byte) (s : State),
    (255 < a → memWrite a v s = .error (.outOfBounds (.mem a))) ∧
    (a ≤ 255 → ∃ t, memWrite a v s = .ok t ∧ t.byteAt a = v ∧ SameMemoryBut a s t ∧
      t.x = s.x ∧ t.pc = s.pc ∧ SameRest s t)

/-- The model's canonical form (log 4): two memories that read alike are equal data. -/
def Obligations.EqualContentsAreEqualMemories : Prop :=
  ∀ m m' : Memory, Memory.wf m → Memory.wf m' → (∀ a, Memory.get m a = Memory.get m' a) → m = m'

/-! ### Encoding -/

/-- 30 R62. -/
def Obligations.OperandCountFromTopBits : Prop :=
  ∀ ir : Byte,
    (ir.toNat / 64 = 0 → operandCount (ir.extractLsb' 6 2) = 0) ∧
    (ir.toNat / 64 = 1 → operandCount (ir.extractLsb' 6 2) = 1) ∧
    (ir.toNat / 64 = 2 → operandCount (ir.extractLsb' 6 2) = 2) ∧
    (ir.toNat / 64 = 3 → operandCount (ir.extractLsb' 6 2) = 2 ∧ ∀ d, decodeWord ir = .ok d → d.isAlu = true) ∧
    (∀ d, decodeWord ir = .ok d → d.n = operandCount (ir.extractLsb' 6 2)) ∧
    (∀ (opa opb : Candidate) (i : Instr) (s t : State), decode ir opa opb = .ok i → AdvancesSequentially i s →
      s.run = .running → exec i s = .next t →
      (∃ r, t.run = .faulted r) ∨ t.pc = s.pc + operandCount (ir.extractLsb' 6 2) + 1)

/-- 30 R63. -/
def Obligations.DecoderFollowsTheTwoTables : Prop :=
  ∀ ir : Byte,
    (ir.getLsbD 5 = true →
      (∀ o, aluTable (ir.extractLsb' 0 4) = some o →
        decodeWord ir = .ok ⟨operandCount (ir.extractLsb' 6 2), true, .alu o⟩) ∧
      (aluTable (ir.extractLsb' 0 4) = none → decodeWord ir = .error (.alu ir))) ∧
    (ir.getLsbD 5 = false →
      (∀ o, directTable ir = some o →
        decodeWord ir = .ok ⟨operandCount (ir.extractLsb' 6 2), false, .direct o⟩) ∧
      (directTable ir = none → decodeWord ir = .error (.direct ir)))

/-- 30 section 3, both tables whole: each of the 17 direct bytes, and each of the 15 sub-codes under every value of the
bits that are not matched, written out from the spec and not through the encoder.  LDI, PRN and HLT are the source's bytes;
the others are D1, D2, D3 (log 5), the aliases D4 (log 6). -/
def Obligations.SomeWordsDecodeAsTabulated : Prop :=
  ∀ opa opb : Candidate,
    (decode 0b00000000#8 opa opb = .ok .nop ∧
      decode 0b00000001#8 opa opb = .ok .hlt ∧
      decode 0b00010001#8 opa opb = .ok .ret ∧
      decode 0b00010011#8 opa opb = .ok .iret ∧
      decode 0b01000101#8 opa opb = .ok (.push opa) ∧
      decode 0b01000110#8 opa opb = .ok (.pop opa) ∧
      decode 0b01000111#8 opa opb = .ok (.prn opa) ∧
      decode 0b01001000#8 opa opb = .ok (.pra opa) ∧
      decode 0b01010000#8 opa opb = .ok (.call opa) ∧
      decode 0b01010100#8 opa opb = .ok (.jmp opa) ∧
      decode 0b01010101#8 opa opb = .ok (.jeq opa) ∧
      decode 0b01010110#8 opa opb = .ok (.jne opa) ∧
      decode 0b01011000#8 opa opb = .ok (.jlt opa) ∧
      decode 0b01011001#8 opa opb = .ok (.jle opa) ∧
      decode 0b01011010#8 opa opb = .ok (.jge opa) ∧
      decode 0b10000010#8 opa opb = .ok (.ldi opa opb) ∧
      decode 0b10000011#8 opa opb = .ok (.ld opa opb)) ∧
    ∀ (nn : BitVec 2) (b : Bool),
      decode (nn ++ 0b1#1 ++ BitVec.ofBool b ++ 0b0000#4) opa opb = .ok (.add ⟨nn, b⟩ opa opb) ∧
      decode (nn ++ 0b1#1 ++ BitVec.ofBool b ++ 0b0001#4) opa opb = .ok (.sub ⟨nn, b⟩ opa opb) ∧
      decode (nn ++ 0b1#1 ++ BitVec.ofBool b ++ 0b0010#4) opa opb = .ok (.mul ⟨nn, b⟩ opa opb) ∧
      decode (nn ++ 0b1#1 ++ BitVec.ofBool b ++ 0b0011#4) opa opb = .ok (.div ⟨nn, b⟩ opa opb) ∧
      decode (nn ++ 0b1#1 ++ BitVec.ofBool b ++ 0b0100#4) opa opb = .ok (.mod ⟨nn, b⟩ opa opb) ∧
      decode (nn ++ 0b1#1 ++ BitVec.ofBool b ++ 0b0101#4) opa opb = .ok (.inc ⟨nn, b⟩ opa) ∧
      decode (nn ++ 0b1#1 ++ BitVec.ofBool b ++ 0b0110#4) opa opb = .ok (.dec ⟨nn, b⟩ opa) ∧
      decode (nn ++ 0b1#1 ++ BitVec.ofBool b ++ 0b0111#4) opa opb = .ok (.cmp ⟨nn, b⟩ opa opb) ∧
      decode (nn ++ 0b1#1 ++ BitVec.ofBool b ++ 0b1000#4) opa opb = .ok (.and ⟨nn, b⟩ opa opb) ∧
      decode (nn ++ 0b1#1 ++ BitVec.ofBool b ++ 0b1001#4) opa opb = .ok (.not ⟨nn, b⟩ opa) ∧
      decode (nn ++ 0b1#1 ++ BitVec.ofBool b ++ 0b1010#4) opa opb = .ok (.or ⟨nn, b⟩ opa opb) ∧
      decode (nn ++ 0b1#1 ++ BitVec.ofBool b ++ 0b1011#4) opa opb = .ok (.xor ⟨nn, b⟩ opa opb) ∧
      decode (nn ++ 0b1#1 ++ BitVec.ofBool b ++ 0b1100#4) opa opb = .ok (.shl ⟨nn, b⟩ opa opb) ∧
      decode (nn ++ 0b1#1 ++ BitVec.ofBool b ++ 0b1101#4) opa opb = .ok (.shr ⟨nn, b⟩ opa opb) ∧
      decode (nn ++ 0b1#1 ++ BitVec.ofBool b ++ 0b1110#4) opa opb = .ok (.st ⟨nn, b⟩ opa opb)

/-- 30 section 4: which words are illegal, and by which name.  The tables are D1, D2, D3 (log 5). -/
def Obligations.IllegalWordsAreRejectedByName : Prop :=
  (∀ (ir : Byte) (opa opb : Candidate),
    (decode ir opa opb = .error (.alu ir) ↔ ir.getLsbD 5 = true ∧ ir.toNat % 16 = 15) ∧
    (decode ir opa opb = .error (.direct ir) ↔ ir.getLsbD 5 = false ∧ ir.toNat ∉
      [0x00, 0x01, 0x11, 0x13, 0x45, 0x46, 0x47, 0x48, 0x50, 0x54, 0x55, 0x56, 0x58, 0x59, 0x5A, 0x82, 0x83]) ∧
    (∀ e, decode ir opa opb = .error e → e = .alu ir ∨ e = .direct ir))

/-- 30 sections 1 to 3: no bit of an encoding is dropped.  Every well-formed instruction, with every operand and every
unmatched bit, comes back from its bytes, whatever bytes follow. -/
def Obligations.DecodeEncodeRoundTrip : Prop :=
  ∀ (i : Instr) (tail : List Byte), i.wf = true →
    decode (encodeWord i) ((encodeOperands i ++ tail)[0]?) ((encodeOperands i ++ tail)[1]?) = .ok i

/-- 30 sections 1 to 3, the other direction: a word that decodes is the word of the instruction it decodes to, and the
operands are the candidates in order. -/
def Obligations.EncodeDecodeRoundTrip : Prop :=
  ∀ (ir : Byte) (opa opb : Candidate) (i : Instr), decode ir opa opb = .ok i →
    encodeWord i = ir ∧ operands i = [opa, opb].take (operands i).length

/-- 40 section 2: a candidate byte that the format does not consume has no effect on what is decoded. -/
def Obligations.UnconsumedBytesAreIgnored : Prop :=
  ∀ (ir : Byte) (opa opb : Candidate) (i : Instr), decode ir opa opb = .ok i →
    ((operands i).length ≤ 1 → ∀ opb', decode ir opa opb' = .ok i) ∧
    ((operands i).length = 0 → ∀ opa' opb', decode ir opa' opb' = .ok i)

/-- 30 section 1, the aliases of an ALU word: same operation, same operands, another advance.  The spec's own decision
D4 (log 6); that a fault changes nothing but `run` is D9 (log 10). -/
def Obligations.AliasesDifferOnlyInTheAdvance : Prop :=
  ∀ (ir ir' : Byte) (opa opb : Candidate) (i : Instr) (s : State),
    ir.getLsbD 5 = true → ir'.getLsbD 5 = true → ir.toNat % 16 = ir'.toNat % 16 → decode ir opa opb = .ok i →
    ∃ i' t t', decode ir' opa opb = .ok i' ∧ exec i s = .next t ∧ exec i' s = .next t' ∧
      ((∃ r, t = { s with run := .faulted r } ∧ t' = t) ∨
        (t.pc = s.pc + operandCount (ir.extractLsb' 6 2) + 1 ∧
          t' = { t with pc := s.pc + operandCount (ir'.extractLsb' 6 2) + 1 }))

/-! ### The step -/

/-- 40 R86: decode the fetched word, then exactly the rule of the decoded instruction. -/
def Obligations.StepRunsTheDecodedInstruction : Prop :=
  ∀ s : State, s.run = .running → s.pc ≤ 255 →
    (∀ e, decodeWord (s.byteAt s.pc) = .error e →
      ∃ t, step s = .next t ∧ t.run = .faulted (.decodeError e)) ∧
    (∀ i, decode (s.byteAt s.pc) (if s.pc + 1 ≤ 255 then some (s.byteAt (s.pc + 1)) else none)
        (if s.pc + 2 ≤ 255 then some (s.byteAt (s.pc + 2)) else none) = .ok i →
      step s = exec i s)

/-- The bytes of a well-formed instruction at `pc` make the step run that instruction (20 section 2, 40 section 5). -/
def Obligations.StepRunsTheEncodedInstruction : Prop :=
  ∀ (s : State) (i : Instr), s.run = .running → i.wf = true →
    (∀ (k : Nat) (v : Byte), (encode i)[k]? = some v → s.pc + k ≤ 255 ∧ s.byteAt (s.pc + k) = v) →
    step s = exec i s

/-- 40 section 1, 70 section 4: a step exists exactly when `run` is Running; the step is total on Running states.  That
Halted and Faulted are absorbing is the spec's own decision D26 (log 2). -/
def Obligations.StepExistsExactlyWhenRunning : Prop :=
  ∀ s : State, (s.run = .running ↔ ∃ t, step s = .next t) ∧
    (s.run = .halted → step s = .fault .noStepHalted) ∧
    (∀ r, s.run = .faulted r → step s = .fault (.noStepFaulted r))

/-- 60 R152: DecodeError, exactly when the word at `pc` is one of the 119 that the decoder rejects, and by which of its two
names. -/
def Obligations.DecodeErrorExactlyOnRejectedWords : Prop :=
  (∀ s : State, s.run = .running → ∀ e,
    ((∃ t, step s = .next t ∧ t.run = .faulted (.decodeError e)) ↔
      s.pc ≤ 255 ∧ decodeWord (s.byteAt s.pc) = .error e)) ∧
  (∀ ir e, decodeWord ir = .error e →
    e = if ir.getLsbD 5 = true then .alu ir else .direct ir) ∧
  ((List.range 256).countP fun n =>
    match decodeWord (BitVec.ofNat 8 n) with
    | .ok _ => false
    | .error _ => true) = 119

/-- 60 section 1: a fault changes nothing but `run` (the spec's own decision D9; log 10), and neither does HLT (D12;
log 13). -/
def Obligations.StoppingChangesOnlyRun : Prop :=
  ∀ s t : State, s.run = .running → step s = .next t → t.run ≠ .running → t = { s with run := t.run }

/-- 10 section 6: Halted is entered only by executing HLT.  HLT leaves `pc` at its word: D12 (log 13). -/
def Obligations.HaltedOnlyByHlt : Prop :=
  ∀ s t : State, s.run = .running → step s = .next t →
    (t.run = .halted ↔ s.pc ≤ 255 ∧ s.byteAt s.pc = 0x01#8)

/-- 60 section 2: the fetch beyond memory, and the complete list of ways a step raises OutOfBounds.  Where the fetch
detects the end is D5 (log 3), the order of the checks D10 (log 11), consumption D11 (log 12), CALL's case D14 (log 15), that
nothing else changes D9 (log 10). -/
def Obligations.OutOfBoundsOnlyAsListed : Prop :=
  ∀ s t : State, s.run = .running → step s = .next t →
    (255 < s.pc → t = { s with run := .faulted (.outOfBounds (.mem s.pc)) }) ∧
    (∀ a, t.run = .faulted (.outOfBounds (.mem a)) →
      (255 < s.pc ∧ a = s.pc) ∨
      (a = 256 ∧ ∃ i, decode (s.byteAt s.pc) (candidate 1 s) (candidate 2 s) = .ok i ∧
        ((s.pc = 255 ∧ 1 ≤ (operands i).length) ∨ (s.pc = 254 ∧ (operands i).length = 2) ∨
          (s.pc = 254 ∧ ∃ c, i = .call c)))) ∧
    (∀ v, t.run = .faulted (.outOfBounds (.reg v)) →
      7 < v.toNat ∧ s.pc ≤ 255 ∧
      ∃ i, decode (s.byteAt s.pc) (candidate 1 s) (candidate 2 s) = .ok i ∧ some v ∈ operands i ∧
        ∀ opa opb, i = .ldi opa opb → opa = some v)

/-- 60 section 3, 40 section 4: every operand check of every instruction, in its order, and that a fault of one changes
nothing but `run`.  The order is D10 (log 11), what is consumed D11 (log 12), precision D9 (log 10). -/
def Obligations.OperandFaultsArePreciseAndOrdered : Prop :=
  ∀ (i : Instr) (s : State),
    (∀ c rest, operands i = c :: rest →
      (c = none → Raises i s (.outOfBounds (.mem (s.pc + 1)))) ∧
      (∀ v, c = some v → 7 < v.toNat → Raises i s (.outOfBounds (.reg v)))) ∧
    (∀ (a : RegIndex) c, operands i = [regOp a, c] →
      (c = none → Raises i s (.outOfBounds (.mem (s.pc + 2)))) ∧
      (∀ v, c = some v → 7 < v.toNat → (∀ x y, i ≠ .ldi x y) → Raises i s (.outOfBounds (.reg v))))

/-- The invariant is kept by every step (10 R14's range, 43 R140, 60 R151; log 3, 4, 10, 13). -/
def Obligations.StepKeepsGoodState : Prop :=
  ∀ s t : State, GoodState s → step s = .next t → GoodState t

/-- 10 section 2, 42's summary of loads and stores: only PUSH and CALL write memory, one cell each, the one at the new stack
pointer.  The bytes are D1 (log 5), the wrap D6 (log 8), that a fault writes nothing D9 (log 10). -/
def Obligations.OnlyPushAndCallWriteMemory : Prop :=
  ∀ s t : State, s.run = .running → step s = .next t → ∀ a, t.byteAt a ≠ s.byteAt a →
    (s.byteAt s.pc = 0x45#8 ∨ s.byteAt s.pc = 0x50#8) ∧ a = (t.reg 7).toNat ∧ t.reg 7 = s.reg 7 - 1

/-- 10 section 7: `out` grows by at most one event, at its end, and only PRN and PRA grow it (D19; log 19).  PRA's byte
0x48 is D1 (log 5), that a fault emits nothing D9 (log 10). -/
def Obligations.OnlyPrnAndPraEmit : Prop :=
  ∀ s t : State, s.run = .running → step s = .next t →
    t.out = s.out ∨
    (∃ a : RegIndex, s.byteAt s.pc = 0x47#8 ∧ t.out = s.out ++ [⟨.num, s.reg a⟩]) ∨
    (∃ a : RegIndex, s.byteAt s.pc = 0x48#8 ∧ t.out = s.out ++ [⟨.chr, s.reg a⟩])

/-- 10 section 7: nothing in the CORE reads `out` (D19; log 19).  Two runs that differ in it alone stay so.  That a
fault leaves it alone is D9 (log 10). -/
def Obligations.OutputIsNeverRead : Prop :=
  ∀ (s t : State) (o : List OutEvent), step s = .next t →
    ∃ es, t.out = s.out ++ es ∧ step { s with out := o } = .next { t with out := o ++ es }

/-- 10 section 5: FL has two writers, and five readers, each of which does read the bits named and no others.  What CMP
leaves is D8 (log 9), which popped byte IRET takes D15 and where it lies D6 (log 16, 8), that a fault leaves FL alone D9
(log 10). -/
def Obligations.FlagsHaveTwoWritersAndFiveReaders : Prop :=
  (∀ (i : Instr) (s t : State), exec i s = .next t → t.fl ≠ s.fl →
    (∃ v a b, i = .cmp v a b ∧ (t.fl = 0x01#8 ∨ t.fl = 0x02#8 ∨ t.fl = 0x04#8)) ∨
    i = .iret) ∧
  (∀ (v : AluBits) (a b : RegIndex) (s t : State), exec (.cmp v (regOp a) (regOp b)) s = .next t →
    t.fl = 0x01#8 ∨ t.fl = 0x02#8 ∨ t.fl = 0x04#8) ∧
  (∀ (s t : State), exec .iret s = .next t → t.fl = s.byteAt (((s.reg 7).toNat + 7) % 256)) ∧
  (ReadsFlag .jeq 0x01#8 ∧ ReadsFlag .jne 0x01#8 ∧ ReadsFlag .jge 0x01#8 ∧ ReadsFlag .jge 0x02#8 ∧
    ReadsFlag .jle 0x01#8 ∧ ReadsFlag .jle 0x04#8 ∧ ReadsFlag .jlt 0x04#8) ∧
  (∀ (i : Instr) (s t : State) (f : Byte), exec i s = .next t →
    (∀ a, i = .jeq a ∨ i = .jne a → f.getLsbD 0 = s.fl.getLsbD 0) →
    (∀ a, i = .jge a → f.getLsbD 0 = s.fl.getLsbD 0 ∧ f.getLsbD 1 = s.fl.getLsbD 1) →
    (∀ a, i = .jle a → f.getLsbD 0 = s.fl.getLsbD 0 ∧ f.getLsbD 2 = s.fl.getLsbD 2) →
    (∀ a, i = .jlt a → f.getLsbD 2 = s.fl.getLsbD 2) →
    ∃ f', exec i { s with fl := f } = .next { t with fl := f' })

/-- 40 R87: the sequential advance, by the operand count of the word, of every ALU-routed instruction and of every direct
one that does not set `pc`, whatever it wrote. -/
def Obligations.SequentialAdvanceByOperandCount : Prop :=
  ∀ (i : Instr) (s t : State), s.run = .running → exec i s = .next t → AdvancesSequentially i s →
    (∃ r, t.run = .faulted r) ∨ t.pc = s.pc + wordCount i + 1

/-! ### ALU-routed instructions -/

/-- 41 R101. -/
def Obligations.AddWrapsModulo256 : Prop := BinaryOp .add fun p q => (p + q) % 256

/-- 41 R102. -/
def Obligations.SubWrapsModulo256 : Prop := BinaryOp .sub fun p q => (p + 256 - q) % 256

/-- 41 R103. -/
def Obligations.MulKeepsTheLowByte : Prop := BinaryOp .mul fun p q => (p * q) % 256

/-- 41 section 2, DIV: the integer quotient is the spec's own reading D16 (log 17). -/
def Obligations.DivGivesTheQuotient : Prop := DivisionOp .div (fun p q => p / q) .div

/-- 41 section 2, MOD: the range of the remainder is the spec's own reading D16 (log 17). -/
def Obligations.ModGivesTheRemainder : Prop := DivisionOp .mod (fun p q => p % q) .mod

/-- 60 R153: who raises DivideByZero and when, and that nothing else changes. -/
def Obligations.DivideByZeroOnlyByDivAndMod : Prop :=
  (∀ (v : AluBits) (a b : RegIndex) (s : State), s.reg b = 0 →
    Raises (.div v (regOp a) (regOp b)) s (.divideByZero .div) ∧
    Raises (.mod v (regOp a) (regOp b)) s (.divideByZero .mod)) ∧
  (∀ (i : Instr) (s t : State) (o : DivOp), s.run = .running → exec i s = .next t →
    t.run = .faulted (.divideByZero o) →
    t = { s with run := t.run } ∧
    ∃ v a b, s.reg b = 0 ∧ ((o = .div ∧ i = .div v (regOp a) (regOp b)) ∨
      (o = .mod ∧ i = .mod v (regOp a) (regOp b))))

/-- 41 R106, R107. -/
def Obligations.IncAndDecStepByOne : Prop :=
  (UnaryOp .inc fun p => (p + 1) % 256) ∧ (UnaryOp .dec fun p => (p + 255) % 256)

/-- 41 section 3, CMP: the order is that of the unsigned values and all of FL is written; the spec's own decision D8
(log 9). -/
def Obligations.CmpWritesTheUnsignedOrder : Prop :=
  ∀ v : AluBits,
    (∀ (a b : RegIndex) (s : State), ∃ t, exec (.cmp v (regOp a) (regOp b)) s = .next t ∧
      ((s.reg a).toNat = (s.reg b).toNat → t.fl = 0x01#8) ∧
      ((s.reg a).toNat > (s.reg b).toNat → t.fl = 0x02#8) ∧
      ((s.reg a).toNat < (s.reg b).toNat → t.fl = 0x04#8) ∧
      t.pc = s.pc + operandCount v.nn + 1 ∧
      SameRegsBut [] s t ∧ SameMemory s t ∧ t.out = s.out ∧ t.run = s.run) ∧
    FaultsOnBoth (.cmp v)

/-- 41 R109, R110, R111: bit by bit, on the two registers named. -/
def Obligations.LogicIsBitwiseOnTwoRegisters : Prop :=
  (BinaryOp .and fun p q => p &&& q) ∧ (BinaryOp .or fun p q => p ||| q) ∧ (BinaryOp .xor fun p q => p ^^^ q)

/-- 41 R112. -/
def Obligations.NotComplementsEveryBit : Prop := UnaryOp .not fun p => 255 - p

/-- 41 section 5: the amount is the whole of x[b], and SHR is logical; the spec's own decision D17 (log 17). -/
def Obligations.ShiftsUseTheWholeAmount : Prop :=
  (BinaryOp .shl fun p q => (p * 2 ^ q) % 256) ∧ (BinaryOp .shr fun p q => p / 2 ^ q)

/-- 41 section 6: ST copies a register and touches no memory (90 C2). -/
def Obligations.StCopiesARegister : Prop := BinaryOp .st fun _ q => q

/-! ### Data movement, stack, output -/

/-- 42, NOP, with its corner case at address 255.  Its byte 0x00 is D1 (log 5), the detection at the fetch D5 (log 3),
that the fault there changes nothing but `run` D9 (log 10). -/
def Obligations.NopOnlyAdvances : Prop :=
  (∀ s : State, ∃ t, exec .nop s = .next t ∧ t.pc = s.pc + 1 ∧
    SameRegsBut [] s t ∧ SameMemory s t ∧ SameRest s t) ∧
  (∀ s : State, s.run = .running → s.pc = 255 → s.byteAt 255 = 0x00#8 →
    step s = .next { s with pc := 256 } ∧
    step { s with pc := 256 } = .next { s with pc := 256, run := .faulted (.outOfBounds (.mem 256)) })

/-- 42 R121: every value round-trips, the immediate is not checked.  Which fault is reported when the register index is bad
and the immediate missing the rule does not say (D10 does). -/
def Obligations.LdiLoadsTheImmediate : Prop :=
  (∀ (a : RegIndex) (v : Byte) (s : State), WritesReg (.ldi (regOp a) (some v)) a v.toNat 2 s) ∧
  (∀ s : State,
    (∀ opb, StopsOnAddress (.ldi none opb) s) ∧
    (∀ v : Byte, v.toNat ≤ 7 → StopsOnAddress (.ldi (some v) none) s) ∧
    (∀ v : Byte, 7 < v.toNat → StopsOnAddress (.ldi (some v) none) s ∨ StopsOnIndex (.ldi (some v) none) s) ∧
    ∀ v w : Byte, 7 < v.toNat → StopsOnIndex (.ldi (some v) (some w)) s)

/-- 42, LD: the address is the content of register b; the spec's own decision D18 (log 18). -/
def Obligations.LdReadsTheAddressedByte : Prop :=
  (∀ (a b : RegIndex) (s : State), WritesReg (.ld (regOp a) (regOp b)) a
    (s.byteAt (s.reg b).toNat).toNat 2 s) ∧
  FaultsOnBoth .ld

/-- 42, PRN and PRA: the raw byte as an event; the port is the spec's own decision D19 (log 19). -/
def Obligations.OutputInstructionsEmitOneEvent : Prop := Emits .prn .num ∧ Emits .pra .chr

/-- 42, PUSH: the stored byte, its address, and that no other byte changes.  The wrap is D6 (log 8), PUSH R7 is D13
(log 14). -/
def Obligations.PushStoresBelowTheStackPointer : Prop :=
  (∀ (a : RegIndex) (s : State), ∃ t, exec (.push (regOp a)) s = .next t ∧
    (t.reg 7).toNat = ((s.reg 7).toNat + 255) % 256 ∧ t.reg 7 = s.spDown.sp ∧
    (a ≠ 7 → t.byteAt s.spDown.sp.toNat = s.reg a) ∧
    (a = 7 → t.byteAt s.spDown.sp.toNat = t.reg 7) ∧
    SameMemoryBut s.spDown.sp.toNat s t ∧ SameRegsBut [7] s t ∧ t.pc = s.pc + 2 ∧ SameRest s t) ∧
  FaultsOnFirst .push

/-- 42, POP: the wrap is D6 (log 8), POP R7 is D13 (log 14). -/
def Obligations.PopLoadsThenIncrements : Prop :=
  (∀ (a : RegIndex) (s : State), ∃ t, exec (.pop (regOp a)) s = .next t ∧
    (a ≠ 7 → t.reg a = s.byteAt (s.reg 7).toNat ∧ (t.reg 7).toNat = ((s.reg 7).toNat + 1) % 256) ∧
    (a = 7 → (t.reg 7).toNat = ((s.byteAt (s.reg 7).toNat).toNat + 1) % 256) ∧
    SameRegsBut [a, 7] s t ∧ SameMemory s t ∧ t.pc = s.pc + 2 ∧ SameRest s t) ∧
  FaultsOnFirst .pop

/-- 42: PUSH then POP on the same register (0 to 6) restores it and the stack pointer.  D6, D13 (log 8, 14). -/
def Obligations.PushThenPopRoundTrips : Prop :=
  ∀ (a : RegIndex) (s : State), a ≠ 7 → ∃ t u, exec (.push (regOp a)) s = .next t ∧
    exec (.pop (regOp a)) t = .next u ∧ SameRegsBut [] s u ∧ u.pc = s.pc + 4 ∧ SameRest s u ∧
    SameMemoryBut s.spDown.sp.toNat s u

/-- 20 section 9: whatever PUSH or CALL writes, and wherever, the very next fetch reads memory with that byte in it, in the
word and in both operand bytes (D22; log 25).  What PUSH R7 writes is D13 (log 14), CALL's bound D14 (log 15). -/
def Obligations.PushedByteIsFetchedNext : Prop :=
  (∀ (a : RegIndex) (s : State), s.run = .running → s.pc ≤ 255 →
    decode (s.byteAt s.pc) (candidate 1 s) (candidate 2 s) = .ok (.push (regOp a)) →
    ∃ t, step s = .next t ∧
      NextFetchSees s t (t.reg 7).toNat (if a = 7 then t.reg 7 else s.reg a)) ∧
  (∀ (r : RegIndex) (s : State), s.run = .running → s.pc ≤ 253 →
    decode (s.byteAt s.pc) (candidate 1 s) (candidate 2 s) = .ok (.call (regOp r)) →
    ∃ t, step s = .next t ∧ NextFetchSees s t (t.reg 7).toNat (BitVec.ofNat 8 (s.pc + 2)))

/-! ### Control transfer, interrupt return, halt -/

/-- 43, CALL: what is pushed and where, the target read after the push, and the fault at the top of memory.  D6, D13, D14
(log 8, 14, 15). -/
def Obligations.CallPushesTheReturnAddress : Prop :=
  (∀ (r : RegIndex) (s : State), s.pc ≤ 253 → ∃ t, exec (.call (regOp r)) s = .next t ∧
    (t.reg 7).toNat = ((s.reg 7).toNat + 255) % 256 ∧
    (t.byteAt s.spDown.sp.toNat).toNat = s.pc + 2 ∧ t.pc = (t.reg r).toNat ∧
    SameMemoryBut s.spDown.sp.toNat s t ∧ SameRegsBut [7] s t ∧ SameRest s t) ∧
  (∀ (r : RegIndex) (s : State), 253 < s.pc →
    Raises (.call (regOp r)) s (.outOfBounds (.mem (s.pc + 2)))) ∧
  FaultsOnFirst .call

/-- 43, RET.  The wrap is D6 (log 8). -/
def Obligations.RetPopsThePc : Prop :=
  ∀ s : State, ∃ t, exec .ret s = .next t ∧ t.pc = (s.byteAt (s.reg 7).toNat).toNat ∧
    (t.reg 7).toNat = ((s.reg 7).toNat + 1) % 256 ∧
    SameRegsBut [7] s t ∧ SameMemory s t ∧ SameRest s t

/-- 43: CALL then, with the stack pointer and the slot as CALL left them, RET, returns behind the CALL and restores the
stack pointer.  D6, D14 (log 8, 15). -/
def Obligations.CallThenRetReturns : Prop :=
  ∀ (r : RegIndex) (s t u : State), s.pc ≤ 253 → exec (.call (regOp r)) s = .next t →
    u.reg 7 = t.reg 7 → u.byteAt (t.reg 7).toNat = t.byteAt (t.reg 7).toNat →
    ∃ w, exec .ret u = .next w ∧ w.pc = s.pc + 2 ∧ w.reg 7 = s.reg 7

/-- 43 R132, with the one-instruction endless loop of its corner case. -/
def Obligations.JmpGoesToTheRegister : Prop :=
  (∀ (r : RegIndex) (s : State), ∃ t, exec (.jmp (regOp r)) s = .next t ∧ t.pc = (s.reg r).toNat ∧
    SameRegsBut [] s t ∧ SameMemory s t ∧ SameRest s t) ∧
  (∀ (r : RegIndex) (s : State), (s.reg r).toNat = s.pc → exec (.jmp (regOp r)) s = .next s) ∧
  StopsOnOne .jmp

/-- 43, JEQ and JNE: E alone decides.  That the operand is checked when the jump does not fire is D11 (log 12). -/
def Obligations.JeqAndJneTestEqual : Prop :=
  JumpsWhen .jeq (fun fl => fl.getLsbD 0 = true) ∧ JumpsWhen .jne (fun fl => fl.getLsbD 0 = false)

/-- 43, JGE, JLE, JLT: two bits or one decide.  D11 (log 12) as for JEQ. -/
def Obligations.OrderJumpsTestTheirBits : Prop :=
  JumpsWhen .jge (fun fl => fl.getLsbD 0 = true ∨ fl.getLsbD 1 = true) ∧
  JumpsWhen .jle (fun fl => fl.getLsbD 0 = true ∨ fl.getLsbD 2 = true) ∧
  JumpsWhen .jlt (fun fl => fl.getLsbD 2 = true)

/-- 43 section 2, the table: after CMP Ra,Rb the jumps decide by the unsigned order.  D8 (log 9). -/
def Obligations.JumpsAfterCmpFollowTheOrder : Prop :=
  ∀ (v : AluBits) (a b r : RegIndex) (s : State), ∃ t, exec (.cmp v (regOp a) (regOp b)) s = .next t ∧
    exec (.jeq (regOp r)) t = .next { t with pc := if (s.reg a).toNat = (s.reg b).toNat then (s.reg r).toNat else t.pc + 2 } ∧
    exec (.jne (regOp r)) t = .next { t with pc := if (s.reg a).toNat ≠ (s.reg b).toNat then (s.reg r).toNat else t.pc + 2 } ∧
    exec (.jge (regOp r)) t = .next { t with pc := if (s.reg a).toNat ≥ (s.reg b).toNat then (s.reg r).toNat else t.pc + 2 } ∧
    exec (.jle (regOp r)) t = .next { t with pc := if (s.reg a).toNat ≤ (s.reg b).toNat then (s.reg r).toNat else t.pc + 2 } ∧
    exec (.jlt (regOp r)) t = .next { t with pc := if (s.reg a).toNat < (s.reg b).toNat then (s.reg r).toNat else t.pc + 2 }

/-- 43 section 3, IRET: nine bytes from the stack pointer up, each address modulo 256.  The layout is the spec's own decision
D15 (log 16), the wrap D6 (log 8). -/
def Obligations.IretPopsNineBytes : Prop :=
  ∀ s : State, ∃ t, exec .iret s = .next t ∧
    (∀ i : RegIndex, i ≠ 7 → t.reg i = s.byteAt (((s.reg 7).toNat + (6 - i.val)) % 256)) ∧
    t.fl = s.byteAt (((s.reg 7).toNat + 7) % 256) ∧
    t.pc = (s.byteAt (((s.reg 7).toNat + 8) % 256)).toNat ∧
    (t.reg 7).toNat = ((s.reg 7).toNat + 9) % 256 ∧
    SameMemory s t ∧ t.out = s.out ∧ t.run = s.run

/-- 43 section 4, HLT: only `run` changes; that `pc` does not is the spec's own decision D12 (log 13). -/
def Obligations.HltHalts : Prop :=
  ∀ s : State, ∃ t, exec .hlt s = .next t ∧ t.run = .halted ∧ t.pc = s.pc ∧
    SameRegsBut [] s t ∧ SameMemory s t ∧ t.fl = s.fl ∧ t.out = s.out ∧
    step t = .fault .noStepHalted
end

