-- ==== Sys2Proof/Laws/Decode.lean ====
section
/-! SUPPORT. What the decoder can answer. -/

namespace Sys2Proof

/-- The fields of an ALU-routed word, put together from its parts. -/
theorem aluWord_fields (code : BitVec 4) (v : AluBits) :
    aluBits (aluWord code v) = v ∧ (aluWord code v).extractLsb' 0 4 = code ∧
    (aluWord code v).extractLsb' 6 2 = v.nn ∧ (aluWord code v).getLsbD 5 = true := by
  obtain ⟨nn, b⟩ := v
  revert code nn b
  decide

/-- A word with bit 5 set is made of its sub-code and its unmatched bits (30 R61, R64). -/
theorem aluWord_of_bit5 : ∀ ir : Byte, ir.getLsbD 5 = true → aluWord (ir.extractLsb' 0 4) (aluBits ir) = ir := by
  decide

/-- A word that decodes is an ALU word of the table or a direct word of the table. -/
theorem decode_ok_cases {ir : Byte} {opa opb : Candidate} {i : Instr} (h : decode ir opa opb = .ok i) :
    (ir.getLsbD 5 = true ∧ ∃ o, aluTable (ir.extractLsb' 0 4) = some o ∧ i = aluInstr o (aluBits ir) opa opb) ∨
    (ir.getLsbD 5 = false ∧ ∃ o, directTable ir = some o ∧ i = directInstr o opa opb) := by
  unfold decode decodeWord at h
  cases h5 : ir.getLsbD 5
  · simp only [h5, Bool.false_eq_true, if_false] at h
    cases ht : directTable ir with
    | none => simp only [ht, reduceCtorEq] at h
    | some o =>
      simp only [ht, Except.ok.injEq] at h
      exact .inr ⟨rfl, o, rfl, h.symm⟩
  · simp only [h5, if_true] at h
    cases ht : aluTable (ir.extractLsb' 0 4) with
    | none => simp only [ht, reduceCtorEq] at h
    | some o =>
      simp only [ht, Except.ok.injEq] at h
      exact .inl ⟨rfl, o, rfl, h.symm⟩

/-- A word decodes exactly as its first stage does: the operand bytes cannot make it fail. -/
theorem decode_error_iff {ir : Byte} {opa opb : Candidate} {e : DecodeReject} :
    decode ir opa opb = .error e ↔ decodeWord ir = .error e := by
  unfold decode
  split
  · rename_i h
    simp [h]
  · rename_i d h
    rw [h]
    split <;> simp

/-- An ALU word of the table decodes to its operation, whatever its unmatched bits (30 R64). -/
theorem decode_aluWord {code : BitVec 4} {o : AluOp} (h : aluTable code = some o) (v : AluBits) (opa opb : Candidate) :
    decode (aluWord code v) opa opb = .ok (aluInstr o v opa opb) := by
  obtain ⟨hb, hc, -, h5⟩ := aluWord_fields code v
  simp only [decode, decodeWord, h5, if_true, hc, h, hb]

/-- No direct word has bit 5 set (30 R69 (b)). -/
theorem directTable_bit5 : ∀ ir : Byte, directTable ir ≠ none → ir.getLsbD 5 = false := by
  decide

/-- A direct word of the table decodes to its instruction (30 R63). -/
theorem decode_direct {ir : Byte} {o : DirectOp} (h : directTable ir = some o) (opa opb : Candidate) :
    decode ir opa opb = .ok (directInstr o opa opb) := by
  have h5 := directTable_bit5 ir (by simp [h])
  simp only [decode, decodeWord, h5, Bool.false_eq_true, if_false, h]

end Sys2Proof
end

