-- ==== Sys2Proof/Laws/State.lean ====
section
/-! SUPPORT. One lemma per field per update of State, true by rfl, and how the registers read after a write. -/

namespace Sys2Proof.Machine

/-! ### setByte -/

@[simp] theorem State.setByte_mem (s : State) (a : Nat) (v : Byte) : (s.setByte a v).mem = Memory.set s.mem a v := rfl
@[simp] theorem State.setByte_x (s : State) (a : Nat) (v : Byte) : (s.setByte a v).x = s.x := rfl
@[simp] theorem State.setByte_pc (s : State) (a : Nat) (v : Byte) : (s.setByte a v).pc = s.pc := rfl
@[simp] theorem State.setByte_fl (s : State) (a : Nat) (v : Byte) : (s.setByte a v).fl = s.fl := rfl
@[simp] theorem State.setByte_run (s : State) (a : Nat) (v : Byte) : (s.setByte a v).run = s.run := rfl
@[simp] theorem State.setByte_out (s : State) (a : Nat) (v : Byte) : (s.setByte a v).out = s.out := rfl
@[simp] theorem State.setByte_reg (s : State) (a : Nat) (v : Byte) (i : RegIndex) :
    (s.setByte a v).reg i = s.reg i := rfl

/-! ### setReg -/

@[simp] theorem State.setReg_mem (s : State) (a : RegIndex) (v : Byte) : (s.setReg a v).mem = s.mem := rfl
@[simp] theorem State.setReg_pc (s : State) (a : RegIndex) (v : Byte) : (s.setReg a v).pc = s.pc := rfl
@[simp] theorem State.setReg_fl (s : State) (a : RegIndex) (v : Byte) : (s.setReg a v).fl = s.fl := rfl
@[simp] theorem State.setReg_run (s : State) (a : RegIndex) (v : Byte) : (s.setReg a v).run = s.run := rfl
@[simp] theorem State.setReg_out (s : State) (a : RegIndex) (v : Byte) : (s.setReg a v).out = s.out := rfl
@[simp] theorem State.setReg_byteAt (s : State) (a : RegIndex) (v : Byte) (k : Nat) :
    (s.setReg a v).byteAt k = s.byteAt k := rfl

/-- Reading a register after a write: the written one reads the new value, every other one its own. -/
theorem State.setReg_reg (s : State) (a i : RegIndex) (v : Byte) :
    (s.setReg a v).reg i = if a = i then v else s.reg i := by
  simp [State.reg, State.setReg, Vector.getElem_set, Fin.ext_iff]

@[simp] theorem State.setReg_reg_self (s : State) (a : RegIndex) (v : Byte) : (s.setReg a v).reg a = v := by
  simp [State.setReg_reg]

/-- Two states with equal registers have equal register files. -/
theorem State.x_ext {s t : State} (h : ∀ i, s.reg i = t.reg i) : s.x = t.x := by
  apply Vector.ext
  intro k hk
  exact h ⟨k, hk⟩

/-- A register write that changes nothing. -/
@[simp] theorem State.setReg_reg_eq (s : State) (a : RegIndex) : s.setReg a (s.reg a) = s := by
  have h : (s.setReg a (s.reg a)).x = s.x := State.x_ext fun i => by
    rw [State.setReg_reg]
    split <;> simp_all
  cases s
  simp only [State.setReg] at h
  simp only [State.setReg, h]

/-! ### advance -/

@[simp] theorem State.advance_mem (s : State) (n : Nat) : (s.advance n).mem = s.mem := rfl
@[simp] theorem State.advance_x (s : State) (n : Nat) : (s.advance n).x = s.x := rfl
@[simp] theorem State.advance_pc (s : State) (n : Nat) : (s.advance n).pc = s.pc + n + 1 := rfl
@[simp] theorem State.advance_fl (s : State) (n : Nat) : (s.advance n).fl = s.fl := rfl
@[simp] theorem State.advance_run (s : State) (n : Nat) : (s.advance n).run = s.run := rfl
@[simp] theorem State.advance_out (s : State) (n : Nat) : (s.advance n).out = s.out := rfl
@[simp] theorem State.advance_reg (s : State) (n : Nat) (i : RegIndex) : (s.advance n).reg i = s.reg i := rfl
@[simp] theorem State.advance_byteAt (s : State) (n k : Nat) : (s.advance n).byteAt k = s.byteAt k := rfl

/-! ### jump -/

@[simp] theorem State.jump_mem (s : State) (v : Byte) : (s.jump v).mem = s.mem := rfl
@[simp] theorem State.jump_x (s : State) (v : Byte) : (s.jump v).x = s.x := rfl
@[simp] theorem State.jump_pc (s : State) (v : Byte) : (s.jump v).pc = v.toNat := rfl
@[simp] theorem State.jump_fl (s : State) (v : Byte) : (s.jump v).fl = s.fl := rfl
@[simp] theorem State.jump_run (s : State) (v : Byte) : (s.jump v).run = s.run := rfl
@[simp] theorem State.jump_out (s : State) (v : Byte) : (s.jump v).out = s.out := rfl
@[simp] theorem State.jump_reg (s : State) (v : Byte) (i : RegIndex) : (s.jump v).reg i = s.reg i := rfl
@[simp] theorem State.jump_byteAt (s : State) (v : Byte) (k : Nat) : (s.jump v).byteAt k = s.byteAt k := rfl

/-! ### emit -/

@[simp] theorem State.emit_mem (s : State) (k : OutKind) (v : Byte) : (s.emit k v).mem = s.mem := rfl
@[simp] theorem State.emit_x (s : State) (k : OutKind) (v : Byte) : (s.emit k v).x = s.x := rfl
@[simp] theorem State.emit_pc (s : State) (k : OutKind) (v : Byte) : (s.emit k v).pc = s.pc := rfl
@[simp] theorem State.emit_fl (s : State) (k : OutKind) (v : Byte) : (s.emit k v).fl = s.fl := rfl
@[simp] theorem State.emit_run (s : State) (k : OutKind) (v : Byte) : (s.emit k v).run = s.run := rfl
@[simp] theorem State.emit_out (s : State) (k : OutKind) (v : Byte) : (s.emit k v).out = s.out ++ [⟨k, v⟩] := rfl
@[simp] theorem State.emit_reg (s : State) (k : OutKind) (v : Byte) (i : RegIndex) :
    (s.emit k v).reg i = s.reg i := rfl
@[simp] theorem State.emit_byteAt (s : State) (k : OutKind) (v : Byte) (a : Nat) :
    (s.emit k v).byteAt a = s.byteAt a := rfl

/-! ### A change of pc, fl, run or out alone leaves registers and memory -/

@[simp] theorem State.reg_of_x (s : State) (m : Memory) (p : Nat) (f : Byte) (r : RunState) (o : List OutEvent)
    (i : RegIndex) : State.reg ⟨m, s.x, p, f, r, o⟩ i = s.reg i := rfl
@[simp] theorem State.byteAt_of_mem (s : State) (x : Vector Byte 8) (p : Nat) (f : Byte) (r : RunState)
    (o : List OutEvent) (a : Nat) : State.byteAt ⟨s.mem, x, p, f, r, o⟩ a = s.byteAt a := rfl

/-! ### The stack operations in terms of the above -/

@[simp] theorem State.sp_eq (s : State) : s.sp = s.reg 7 := rfl
@[simp] theorem State.setSp_eq (s : State) (v : Byte) : s.setSp v = s.setReg 7 v := rfl
@[simp] theorem State.spDown_eq (s : State) : s.spDown = s.setReg 7 (s.reg 7 - 1) := rfl
@[simp] theorem State.spUp_eq (s : State) : s.spUp = s.setReg 7 (s.reg 7 + 1) := rfl
@[simp] theorem State.load_eq (s : State) (a : Byte) : s.load a = s.byteAt a.toNat := rfl
@[simp] theorem State.store_eq (s : State) (a v : Byte) : s.store a v = s.setByte a.toNat v := rfl
@[simp] theorem State.top_eq (s : State) : s.top = s.byteAt (s.reg 7).toNat := rfl

/-- What Push does: one store at the decremented stack pointer (20 R48). -/
theorem State.push_eq (s : State) (v : State → Byte) :
    s.push v = (s.setReg 7 (s.reg 7 - 1)).setByte (s.reg 7 - 1).toNat (v (s.setReg 7 (s.reg 7 - 1))) := by
  simp [State.push]

/-! ### The pops of IRET -/

@[simp] theorem State.popReg_mem (s : State) (i : RegIndex) : (s.popReg i).mem = s.mem := rfl
@[simp] theorem State.popReg_out (s : State) (i : RegIndex) : (s.popReg i).out = s.out := rfl
@[simp] theorem State.popReg_run (s : State) (i : RegIndex) : (s.popReg i).run = s.run := rfl
@[simp] theorem State.popReg_fl (s : State) (i : RegIndex) : (s.popReg i).fl = s.fl := rfl
@[simp] theorem State.popReg_pc (s : State) (i : RegIndex) : (s.popReg i).pc = s.pc := rfl
@[simp] theorem State.popReg_byteAt (s : State) (i : RegIndex) (a : Nat) : (s.popReg i).byteAt a = s.byteAt a := rfl
@[simp] theorem State.popFlags_mem (s : State) : (s.popFlags).mem = s.mem := rfl
@[simp] theorem State.popFlags_out (s : State) : (s.popFlags).out = s.out := rfl
@[simp] theorem State.popFlags_run (s : State) : (s.popFlags).run = s.run := rfl
@[simp] theorem State.popFlags_pc (s : State) : (s.popFlags).pc = s.pc := rfl
@[simp] theorem State.popFlags_byteAt (s : State) (a : Nat) : (s.popFlags).byteAt a = s.byteAt a := rfl
@[simp] theorem State.popPc_mem (s : State) : (s.popPc).mem = s.mem := rfl
@[simp] theorem State.popPc_out (s : State) : (s.popPc).out = s.out := rfl
@[simp] theorem State.popPc_run (s : State) : (s.popPc).run = s.run := rfl
@[simp] theorem State.popPc_fl (s : State) : (s.popPc).fl = s.fl := rfl
@[simp] theorem State.popPc_byteAt (s : State) (a : Nat) : (s.popPc).byteAt a = s.byteAt a := rfl
@[simp] theorem State.popFlags_fl (s : State) : s.popFlags.fl = s.byteAt (s.reg 7).toNat := rfl
@[simp] theorem State.popPc_pc (s : State) : s.popPc.pc = (s.byteAt (s.reg 7).toNat).toNat := rfl
@[simp] theorem State.popFlags_reg (s : State) (i : RegIndex) :
    s.popFlags.reg i = (s.setReg 7 (s.reg 7 + 1)).reg i := rfl
@[simp] theorem State.popPc_reg (s : State) (i : RegIndex) :
    s.popPc.reg i = (s.setReg 7 (s.reg 7 + 1)).reg i := rfl

/-- What one pop into a register does to the registers. -/
theorem State.popReg_reg (s : State) (i j : RegIndex) :
    (s.popReg i).reg j = if i = j then s.byteAt (s.reg 7).toNat else if 7 = j then s.reg 7 + 1 else s.reg j := by
  simp only [State.popReg, State.spUp_eq, State.setReg_reg, State.top_eq]

@[simp] theorem State.popContext_mem (s : State) : s.popContext.mem = s.mem := by simp [State.popContext]
@[simp] theorem State.popContext_out (s : State) : s.popContext.out = s.out := by simp [State.popContext]
@[simp] theorem State.popContext_run (s : State) : s.popContext.run = s.run := by simp [State.popContext]
@[simp] theorem State.popContext_byteAt (s : State) (a : Nat) : s.popContext.byteAt a = s.byteAt a := by
  simp [State.popContext]

/-- The k-th byte from the top of the stack, its address modulo 256. -/
def State.stackByte (s : State) (k : Byte) : Byte := s.byteAt (s.reg 7 + k).toNat

/-- A state is its six fields. -/
theorem State.ext_fields {s t : State} (hm : s.mem = t.mem) (hx : ∀ i, s.reg i = t.reg i) (hp : s.pc = t.pc)
    (hf : s.fl = t.fl) (hr : s.run = t.run) (ho : s.out = t.out) : s = t := by
  have hx := State.x_ext hx
  cases s
  cases t
  simp_all

/-- The nine pops of IRET as one update (43 R139). -/
theorem State.popContext_eq (s : State) : s.popContext =
    { s with
      x := #v[s.stackByte 6, s.stackByte 5, s.stackByte 4, s.stackByte 3, s.stackByte 2, s.stackByte 1,
        s.top, s.reg 7 + 9]
      fl := s.stackByte 7
      pc := (s.stackByte 8).toNat } := by
  refine State.ext_fields (by simp) (fun i => ?_) ?_ ?_ (by simp) (by simp)
  · have hi : i = 0 ∨ i = 1 ∨ i = 2 ∨ i = 3 ∨ i = 4 ∨ i = 5 ∨ i = 6 ∨ i = 7 := by
      clear s
      revert i
      decide
    rcases hi with rfl | rfl | rfl | rfl | rfl | rfl | rfl | rfl <;>
    · simp [-BitVec.toNat_add, State.popContext, State.setReg_reg, State.popReg_reg, BitVec.add_assoc]
      rfl
  · simp [State.popContext, State.popReg_reg, State.stackByte, BitVec.add_assoc]
  · simp [State.popContext, State.popReg_reg, State.stackByte, BitVec.add_assoc]

/-! ### Push -/

@[simp] theorem State.push_pc (s : State) (v : State → Byte) : (s.push v).pc = s.pc := rfl
@[simp] theorem State.push_fl (s : State) (v : State → Byte) : (s.push v).fl = s.fl := rfl
@[simp] theorem State.push_run (s : State) (v : State → Byte) : (s.push v).run = s.run := rfl
@[simp] theorem State.push_out (s : State) (v : State → Byte) : (s.push v).out = s.out := rfl
@[simp] theorem State.push_reg (s : State) (v : State → Byte) (i : RegIndex) :
    (s.push v).reg i = (s.setReg 7 (s.reg 7 - 1)).reg i := rfl

end Sys2Proof.Machine
end

