-- ==== Sys2Proof/Laws/Memory.lean ====
section
/-! SUPPORT. The laws of memory: a read after a write, and that every operation keeps the canonical form. -/

namespace Sys2Proof.Machine

/-- Dropping the cells of one address: it reads as the background, every other address as before. -/
theorem Memory.get_filter (m : Memory) (a k : Nat) :
    Memory.get (m.filter fun c => c.1 ≠ a) k = if a = k then Config.memBackground else Memory.get m k := by
  induction m with
  | nil => simp [Memory.get]
  | cons c m ih =>
    obtain ⟨b, w⟩ := c
    by_cases hb : b = a
    · subst hb
      have hd : List.filter (fun c : Host.Cell => decide (c.1 ≠ b)) ((b, w) :: m)
          = List.filter (fun c : Host.Cell => decide (c.1 ≠ b)) m := by simp
      rw [hd, ih]
      by_cases hk : b = k
      · simp [hk]
      · simp [Memory.get, hk, Ne.symm hk]
    · have hd : List.filter (fun c : Host.Cell => decide (c.1 ≠ a)) ((b, w) :: m)
          = (b, w) :: List.filter (fun c : Host.Cell => decide (c.1 ≠ a)) m := by simp [hb]
      rw [hd]
      simp only [Memory.get, ih]
      by_cases hk : k = b
      · subst hk; simp [Ne.symm hb]
      · simp [hk]

/-- Inserting a cell for an address that has none: it reads as the new byte, every other address as before. -/
theorem Memory.get_insert (m : Memory) (a k : Nat) (v : Byte) (h : ∀ c ∈ m, c.1 ≠ a) :
    Memory.get (Memory.insert m a v) k = if a = k then v else Memory.get m k := by
  induction m with
  | nil => simp [Memory.insert, Memory.get, eq_comm]
  | cons c m ih =>
    obtain ⟨b, w⟩ := c
    have hb : b ≠ a := h (b, w) (by simp)
    have ih := ih fun c hc => h c (by simp [hc])
    unfold Memory.insert
    split
    · simp [Memory.get, eq_comm]
    · simp only [Memory.get, ih]
      by_cases hk : k = b
      · subst hk; simp [Ne.symm hb]
      · simp [hk]

/-- Read after write: the written address gives the byte, every other one what it gave (20 R45, R46). -/
theorem Memory.get_set (m : Memory) (a k : Nat) (v : Byte) :
    Memory.get (Memory.set m a v) k = if a = k then v else Memory.get m k := by
  unfold Memory.set
  split
  · rename_i h
    rw [Memory.get_filter, h]
  · rw [Memory.get_insert _ _ _ _ (fun c hc => by simpa using (List.mem_filter.mp hc).2), Memory.get_filter]
    split <;> rfl

/-- The same law on a state. -/
theorem State.setByte_byteAt (s : State) (a k : Nat) (v : Byte) :
    (s.setByte a v).byteAt k = if a = k then v else s.byteAt k :=
  Memory.get_set s.mem a k v

@[simp] theorem State.setByte_byteAt_self (s : State) (a : Nat) (v : Byte) : (s.setByte a v).byteAt a = v := by
  simp [State.setByte_byteAt]

/-- The cells of a memory after an insertion. -/
theorem Memory.mem_insert {m : Memory} {a : Nat} {v : Byte} {c : Host.Cell} (h : c ∈ Memory.insert m a v) :
    c = (a, v) ∨ c ∈ m := by
  induction m with
  | nil => simpa [Memory.insert] using h
  | cons d m ih =>
    obtain ⟨b, w⟩ := d
    unfold Memory.insert at h
    split at h
    · simpa using h
    · rcases List.mem_cons.mp h with h | h
      · simp [h]
      · rcases ih h with h | h <;> simp [h]

/-- An insertion for an address that has no cell keeps the rising order. -/
theorem Memory.insert_pairwise {m : Memory} {a : Nat} {v : Byte}
    (hm : m.Pairwise fun c d => c.1 < d.1) (h : ∀ c ∈ m, c.1 ≠ a) :
    (Memory.insert m a v).Pairwise fun c d => c.1 < d.1 := by
  induction m with
  | nil => simp [Memory.insert]
  | cons d m ih =>
    obtain ⟨b, w⟩ := d
    have hb : b ≠ a := h (b, w) (by simp)
    obtain ⟨hd, hm'⟩ := List.pairwise_cons.mp hm
    unfold Memory.insert
    split
    · rename_i hlt
      refine List.pairwise_cons.mpr ⟨fun c hc => ?_, hm⟩
      rcases List.mem_cons.mp hc with rfl | hc
      · exact hlt
      · exact lt_trans hlt (hd c hc)
    · rename_i hlt
      refine List.pairwise_cons.mpr ⟨fun c hc => ?_, ih hm' fun c hc => h c (by simp [hc])⟩
      rcases Memory.mem_insert hc with rfl | hc
      · simp only; omega
      · exact hd c hc

/-- Every write within memory keeps the canonical form. -/
theorem Memory.set_wf {m : Memory} (hm : Memory.wf m) {a : Nat} (ha : a < Config.memSize) (v : Byte) :
    Memory.wf (Memory.set m a v) := by
  have hp := hm.1.filter (fun c => decide (c.1 ≠ a))
  unfold Memory.set
  split
  · exact ⟨hp, fun c hc => hm.2 c (List.mem_of_mem_filter hc)⟩
  · rename_i hv
    refine ⟨Memory.insert_pairwise hp fun c hc => by simpa using (List.mem_filter.mp hc).2, fun c hc => ?_⟩
    rcases Memory.mem_insert hc with rfl | hc
    · exact ⟨ha, hv⟩
    · exact hm.2 c (List.mem_of_mem_filter hc)

/-- A store at an address held in a register keeps the canonical form (20 R47). -/
theorem State.store_wf {s : State} (hs : Memory.wf s.mem) (a v : Byte) : Memory.wf (s.store a v).mem :=
  Memory.set_wf hs (by have := a.isLt; simp only [Config.memSize]; omega) v

/-- Reset's memory is in the canonical form. -/
theorem State.reset_wf : Memory.wf State.reset.mem := by decide

/-- A load that the port accepts keeps the canonical form (10 R26). -/
theorem loadBytes_wf (bytes : List Byte) (a : Nat) (s : State) (h : a + bytes.length ≤ 256)
    (hs : Memory.wf s.mem) : Memory.wf (loadBytes bytes a s).mem := by
  induction bytes generalizing a s with
  | nil => exact hs
  | cons v vs ih =>
    simp only [List.length_cons] at h
    exact ih (a + 1) (s.setByte a v) (by omega) (Memory.set_wf hs (by simp only [Config.memSize]; omega) v)

end Sys2Proof.Machine
end

