-- ==== Sys2Proof/Laws/Operands.lean ====
section
/-! SUPPORT. What each operand form can do: one law per form for a register that is there, one inversion per form. -/

namespace Sys2Proof.Machine

/-- Every byte up to 7 names a register. -/
theorem exists_regByte {v : Byte} (h : v.toNat < 8) : ∃ a : RegIndex, v = regByte a ∧ a.val = v.toNat :=
  ⟨⟨v.toNat, h⟩, by simp [regByte], rfl⟩

@[simp] theorem regByte_toNat (a : RegIndex) : (regByte a).toNat = a.val := by
  have := a.isLt
  simp only [regByte, BitVec.toNat_ofNat]
  omega

/-- RegIdx of the byte that names a register. -/
@[simp] theorem regIdx_regByte (a : RegIndex) : regIdx (regByte a) = .ok a := by
  simp [regIdx]

/-- RegIdx of a byte above 7 (40 R85). -/
theorem regIdx_above {v : Byte} (h : 7 < v.toNat) : regIdx v = .error (.outOfBounds (.reg v)) := by
  simp only [regIdx]
  rw [dif_neg (by omega)]

@[simp] theorem regOperand_none (k : Nat) (s : State) :
    regOperand k none s = .error (.outOfBounds (.mem (s.pc + k))) := rfl

@[simp] theorem regOperand_some (k : Nat) (v : Byte) (s : State) : regOperand k (some v) s = regIdx v := rfl

@[simp] theorem regOperand_regOp (k : Nat) (a : RegIndex) (s : State) : regOperand k (regOp a) s = .ok a :=
  regIdx_regByte a

@[simp] theorem operand_none (k : Nat) (s : State) :
    operand k none s = .error (.outOfBounds (.mem (s.pc + k))) := rfl

@[simp] theorem operand_some (k : Nat) (v : Byte) (s : State) : operand k (some v) s = .ok v := rfl

/-- The faults a register operand k can raise, and nothing else: the byte is missing or above 7. -/
def RegOperandFault (k : Nat) (c : Candidate) (s : State) (r : FaultRecord) : Prop :=
  (c = none ∧ r = .outOfBounds (.mem (s.pc + k))) ∨
  ∃ v : Byte, c = some v ∧ 7 < v.toNat ∧ r = .outOfBounds (.reg v)

/-- A register operand either names a register or raises one of its two faults. -/
theorem regOperand_cases (k : Nat) (c : Candidate) (s : State) :
    (∃ a, c = regOp a ∧ regOperand k c s = .ok a) ∨
    ∃ r, regOperand k c s = .error r ∧ RegOperandFault k c s r := by
  cases c with
  | none => exact .inr ⟨_, rfl, .inl ⟨rfl, rfl⟩⟩
  | some v =>
    by_cases h : v.toNat < 8
    · obtain ⟨a, rfl, -⟩ := exists_regByte h
      exact .inl ⟨a, rfl, regIdx_regByte a⟩
    · have h : 7 < v.toNat := by omega
      exact .inr ⟨_, regIdx_above h, .inr ⟨v, rfl, h, rfl⟩⟩

@[simp] theorem withReg_regOp (a : RegIndex) (s : State) (f : RegIndex → Result) :
    withReg (regOp a) s f = f a := by
  simp [withReg, orRaise]

@[simp] theorem withTwoRegs_regOp (a b : RegIndex) (s : State) (f : RegIndex → RegIndex → Result) :
    withTwoRegs (regOp a) (regOp b) s f = f a b := by
  simp [withTwoRegs, orRaise]

@[simp] theorem withRegImm_regOp (a : RegIndex) (v : Byte) (s : State) (f : RegIndex → Byte → Result) :
    withRegImm (regOp a) (some v) s f = f a v := by
  simp [withRegImm, orRaise]

/-- All a one-register form can do: run on the register named, or raise a fault of its operand. -/
theorem withReg_cases (opa : Candidate) (s : State) (f : RegIndex → Result) :
    (∃ a, opa = regOp a ∧ withReg opa s f = f a) ∨
    ∃ r, withReg opa s f = raise r s ∧ RegOperandFault 1 opa s r := by
  rcases regOperand_cases 1 opa s with ⟨a, rfl, h⟩ | ⟨r, h, hr⟩
  · exact .inl ⟨a, rfl, by simp⟩
  · exact .inr ⟨r, by simp [withReg, orRaise, h], hr⟩

/-- All a two-register form can do. -/
theorem withTwoRegs_cases (opa opb : Candidate) (s : State) (f : RegIndex → RegIndex → Result) :
    (∃ a b, opa = regOp a ∧ opb = regOp b ∧ withTwoRegs opa opb s f = f a b) ∨
    ∃ r, withTwoRegs opa opb s f = raise r s ∧
      (RegOperandFault 1 opa s r ∨ ∃ a, opa = regOp a ∧ RegOperandFault 2 opb s r) := by
  rcases regOperand_cases 1 opa s with ⟨a, rfl, h⟩ | ⟨r, h, hr⟩
  · rcases regOperand_cases 2 opb s with ⟨b, rfl, h'⟩ | ⟨r, h', hr⟩
    · exact .inl ⟨a, b, rfl, rfl, by simp⟩
    · exact .inr ⟨r, by simp [withTwoRegs, orRaise, h'], .inr ⟨a, rfl, hr⟩⟩
  · exact .inr ⟨r, by simp [withTwoRegs, orRaise, h], .inl hr⟩

/-- All LDI's form can do. -/
theorem withRegImm_cases (opa opb : Candidate) (s : State) (f : RegIndex → Byte → Result) :
    (∃ a v, opa = regOp a ∧ opb = some v ∧ withRegImm opa opb s f = f a v) ∨
    ∃ r, withRegImm opa opb s f = raise r s ∧
      (RegOperandFault 1 opa s r ∨
        ∃ a, opa = regOp a ∧ opb = none ∧ r = .outOfBounds (.mem (s.pc + 2))) := by
  rcases regOperand_cases 1 opa s with ⟨a, rfl, h⟩ | ⟨r, h, hr⟩
  · cases opb with
    | none => exact .inr ⟨_, by simp [withRegImm, orRaise], .inr ⟨a, rfl, rfl, rfl⟩⟩
    | some v => exact .inl ⟨a, v, rfl, rfl, by simp⟩
  · exact .inr ⟨r, by simp [withRegImm, orRaise, h], .inl hr⟩

/-- A fault of an operand is the fault its fetch raises. -/
theorem regOperand_of_fault {k : Nat} {c : Candidate} {s : State} {r : FaultRecord} (h : RegOperandFault k c s r) :
    regOperand k c s = .error r := by
  rcases h with ⟨rfl, rfl⟩ | ⟨v, rfl, hv, rfl⟩
  · rfl
  · exact regIdx_above hv

theorem withReg_of_fault {opa : Candidate} {s : State} {r : FaultRecord} (h : RegOperandFault 1 opa s r)
    (f : RegIndex → Result) : withReg opa s f = raise r s := by
  simp [withReg, orRaise, regOperand_of_fault h]

theorem withTwoRegs_of_fault_first {opa : Candidate} {s : State} {r : FaultRecord} (h : RegOperandFault 1 opa s r)
    (opb : Candidate) (f : RegIndex → RegIndex → Result) : withTwoRegs opa opb s f = raise r s := by
  simp [withTwoRegs, orRaise, regOperand_of_fault h]

theorem withTwoRegs_of_fault_second {opb : Candidate} {s : State} {r : FaultRecord} (h : RegOperandFault 2 opb s r)
    (a : RegIndex) (f : RegIndex → RegIndex → Result) : withTwoRegs (regOp a) opb s f = raise r s := by
  simp [withTwoRegs, orRaise, regOperand_of_fault h]

theorem withRegImm_of_fault_first {opa : Candidate} {s : State} {r : FaultRecord} (h : RegOperandFault 1 opa s r)
    (opb : Candidate) (f : RegIndex → Byte → Result) : withRegImm opa opb s f = raise r s := by
  simp [withRegImm, orRaise, regOperand_of_fault h]

theorem withRegImm_of_missing (a : RegIndex) (s : State) (f : RegIndex → Byte → Result) :
    withRegImm (regOp a) none s f = raise (.outOfBounds (.mem (s.pc + 2))) s := by
  simp [withRegImm, orRaise]

end Sys2Proof.Machine
end

