-- ==== Sys2Proof/Laws/Exec.lean ====
section
/-! SUPPORT. All that `exec` can do, said once: complete with the state of the instruction's rule, or raise a fault of its
operands or of its own.  Every statement about all instructions goes through `exec_cases`. -/

namespace Sys2Proof.Machine

/-- The state after an instruction that completes, one case per instruction. -/
inductive Completes (s : State) : Instr → State → Prop where
  | nop : Completes s .nop (s.advance 0)
  | hlt : Completes s .hlt ({ s with run := .halted })
  | ret : Completes s .ret (s.popPc)
  | iret : Completes s .iret (s.popContext)
  | prn (a : RegIndex) : Completes s (.prn (regOp a)) ((s.emit .num (s.reg a)).advance 1)
  | pra (a : RegIndex) : Completes s (.pra (regOp a)) ((s.emit .chr (s.reg a)).advance 1)
  | push (a : RegIndex) : Completes s (.push (regOp a)) ((s.push fun d => d.reg a).advance 1)
  | pop (a : RegIndex) : Completes s (.pop (regOp a)) (((s.setReg a s.top).spUp).advance 1)
  | jmp (a : RegIndex) : Completes s (.jmp (regOp a)) (s.jump (s.reg a))
  | jeq (a : RegIndex) : Completes s (.jeq (regOp a)) (if jeqFires s.fl then s.jump (s.reg a) else s.advance 1)
  | jne (a : RegIndex) : Completes s (.jne (regOp a)) (if jneFires s.fl then s.jump (s.reg a) else s.advance 1)
  | jge (a : RegIndex) : Completes s (.jge (regOp a)) (if jgeFires s.fl then s.jump (s.reg a) else s.advance 1)
  | jle (a : RegIndex) : Completes s (.jle (regOp a)) (if jleFires s.fl then s.jump (s.reg a) else s.advance 1)
  | jlt (a : RegIndex) : Completes s (.jlt (regOp a)) (if jltFires s.fl then s.jump (s.reg a) else s.advance 1)
  | call (r : RegIndex) (h : s.pc + 2 ≤ 255) : Completes s (.call (regOp r))
      ((s.push fun d => BitVec.ofNat 8 (d.pc + 2)).jump ((s.push fun d => BitVec.ofNat 8 (d.pc + 2)).reg r))
  | ldi (a : RegIndex) (v : Byte) : Completes s (.ldi (regOp a) (some v)) ((s.setReg a v).advance 2)
  | ld (a b : RegIndex) : Completes s (.ld (regOp a) (regOp b)) ((s.setReg a (s.load (s.reg b))).advance 2)
  | add (v : AluBits) (a b : RegIndex) : Completes s (.add v (regOp a) (regOp b))
      ((s.setReg a (s.reg a + s.reg b)).advance (operandCount v.nn))
  | sub (v : AluBits) (a b : RegIndex) : Completes s (.sub v (regOp a) (regOp b))
      ((s.setReg a (s.reg a - s.reg b)).advance (operandCount v.nn))
  | mul (v : AluBits) (a b : RegIndex) : Completes s (.mul v (regOp a) (regOp b))
      ((s.setReg a (s.reg a * s.reg b)).advance (operandCount v.nn))
  | and (v : AluBits) (a b : RegIndex) : Completes s (.and v (regOp a) (regOp b))
      ((s.setReg a (s.reg a &&& s.reg b)).advance (operandCount v.nn))
  | or (v : AluBits) (a b : RegIndex) : Completes s (.or v (regOp a) (regOp b))
      ((s.setReg a (s.reg a ||| s.reg b)).advance (operandCount v.nn))
  | xor (v : AluBits) (a b : RegIndex) : Completes s (.xor v (regOp a) (regOp b))
      ((s.setReg a (s.reg a ^^^ s.reg b)).advance (operandCount v.nn))
  | shl (v : AluBits) (a b : RegIndex) : Completes s (.shl v (regOp a) (regOp b))
      ((s.setReg a (s.reg a <<< s.reg b)).advance (operandCount v.nn))
  | shr (v : AluBits) (a b : RegIndex) : Completes s (.shr v (regOp a) (regOp b))
      ((s.setReg a (s.reg a >>> s.reg b)).advance (operandCount v.nn))
  | st (v : AluBits) (a b : RegIndex) : Completes s (.st v (regOp a) (regOp b))
      ((s.setReg a (s.reg b)).advance (operandCount v.nn))
  | div (v : AluBits) (a b : RegIndex) (h : s.reg b ≠ 0) : Completes s (.div v (regOp a) (regOp b))
      ((s.setReg a (s.reg a / s.reg b)).advance (operandCount v.nn))
  | mod (v : AluBits) (a b : RegIndex) (h : s.reg b ≠ 0) : Completes s (.mod v (regOp a) (regOp b))
      ((s.setReg a (s.reg a % s.reg b)).advance (operandCount v.nn))
  | inc (v : AluBits) (a : RegIndex) : Completes s (.inc v (regOp a))
      ((s.setReg a (s.reg a + 1)).advance (operandCount v.nn))
  | dec (v : AluBits) (a : RegIndex) : Completes s (.dec v (regOp a))
      ((s.setReg a (s.reg a - 1)).advance (operandCount v.nn))
  | not (v : AluBits) (a : RegIndex) : Completes s (.not v (regOp a))
      ((s.setReg a (~~~ s.reg a)).advance (operandCount v.nn))
  | cmp (v : AluBits) (a b : RegIndex) : Completes s (.cmp v (regOp a) (regOp b))
      ({ s with fl := compareFlags (s.reg a) (s.reg b) }.advance (operandCount v.nn))

/-- A fault of the operands: the first one's, or, the first naming a register, the second one's; LDI's second operand is an
immediate, which faults only when missing (60 R156 (3) to (6)). -/
def OperandFault (i : Instr) (s : State) (r : FaultRecord) : Prop :=
  (∃ c rest, operands i = c :: rest ∧ RegOperandFault 1 c s r) ∨
  ∃ a c, operands i = [regOp a, c] ∧ RegOperandFault 2 c s r ∧ ∀ x y, i = .ldi x y → y = none

/-- A fault of the instruction's own, after its operands passed (60 R156 (7)). -/
inductive OwnFault (s : State) : Instr → FaultRecord → Prop where
  | div (v : AluBits) (a b : RegIndex) (h : s.reg b = 0) :
      OwnFault s (.div v (regOp a) (regOp b)) (.divideByZero .div)
  | mod (v : AluBits) (a b : RegIndex) (h : s.reg b = 0) :
      OwnFault s (.mod v (regOp a) (regOp b)) (.divideByZero .mod)
  | call (r : RegIndex) (h : 255 < s.pc + 2) :
      OwnFault s (.call (regOp r)) (.outOfBounds (.mem (s.pc + 2)))

/-- What `exec i s` answers, in one of its two shapes. -/
def Answers (i : Instr) (s : State) (x : Result) : Prop :=
  (∃ t, x = .next t ∧ Completes s i t) ∨ ∃ r, x = raise r s ∧ (OperandFault i s r ∨ OwnFault s i r)

/-- A one-register form answers in the two shapes when its body does. -/
theorem withReg_answers {i : Instr} {opa : Candidate} {s : State} {f : RegIndex → Result}
    (ho : operands i = [opa]) (h : ∀ a, opa = regOp a → Answers i s (f a)) :
    Answers i s (withReg opa s f) := by
  rcases withReg_cases opa s f with ⟨a, ha, hf⟩ | ⟨r, hf, hr⟩
  · exact hf ▸ h a ha
  · exact .inr ⟨r, hf, .inl (.inl ⟨opa, [], ho, hr⟩)⟩

/-- A two-register form answers in the two shapes when its body does. -/
theorem withTwoRegs_answers {i : Instr} {opa opb : Candidate} {s : State} {f : RegIndex → RegIndex → Result}
    (ho : operands i = [opa, opb]) (hl : ∀ x y, i ≠ .ldi x y)
    (h : ∀ a b, opa = regOp a → opb = regOp b → Answers i s (f a b)) : Answers i s (withTwoRegs opa opb s f) := by
  rcases withTwoRegs_cases opa opb s f with ⟨a, b, ha, hb, hf⟩ | ⟨r, hf, hr | ⟨a, ha, hr⟩⟩
  · exact hf ▸ h a b ha hb
  · exact .inr ⟨r, hf, .inl (.inl ⟨opa, [opb], ho, hr⟩)⟩
  · exact .inr ⟨r, hf, .inl (.inr ⟨a, opb, ha ▸ ho, hr, fun x y e => absurd e (hl x y)⟩)⟩

/-- LDI's form answers in the two shapes when its body does. -/
theorem withRegImm_answers {opa opb : Candidate} {s : State} {f : RegIndex → Byte → Result}
    (h : ∀ a v, opa = regOp a → opb = some v → Answers (.ldi opa opb) s (f a v)) :
    Answers (.ldi opa opb) s (withRegImm opa opb s f) := by
  rcases withRegImm_cases opa opb s f with ⟨a, v, ha, hv, hf⟩ | ⟨r, hf, hr | ⟨a, ha, hn, hr⟩⟩
  · exact hf ▸ h a v ha hv
  · exact .inr ⟨r, hf, .inl (.inl ⟨opa, [opb], rfl, hr⟩)⟩
  · exact .inr ⟨r, hf, .inl (.inr ⟨a, opb, ha ▸ rfl, .inl ⟨hn, hr⟩, fun x y e => by cases e; exact hn⟩)⟩

/-- All that `exec` can do. -/
theorem exec_cases (i : Instr) (s : State) : Answers i s (exec i s) := by
  cases i with
  | nop => exact .inl ⟨_, rfl, .nop⟩
  | hlt => exact .inl ⟨_, rfl, .hlt⟩
  | ret => exact .inl ⟨_, rfl, .ret⟩
  | iret => exact .inl ⟨_, rfl, .iret⟩
  | prn opa => exact withReg_answers rfl fun a ha => .inl ⟨_, rfl, ha ▸ .prn a⟩
  | pra opa => exact withReg_answers rfl fun a ha => .inl ⟨_, rfl, ha ▸ .pra a⟩
  | push opa => exact withReg_answers rfl fun a ha => .inl ⟨_, rfl, ha ▸ .push a⟩
  | pop opa => exact withReg_answers rfl fun a ha => .inl ⟨_, rfl, ha ▸ .pop a⟩
  | jmp opa => exact withReg_answers rfl fun a ha => .inl ⟨_, rfl, ha ▸ .jmp a⟩
  | jeq opa => exact withReg_answers rfl fun a ha => .inl ⟨_, rfl, ha ▸ .jeq a⟩
  | jne opa => exact withReg_answers rfl fun a ha => .inl ⟨_, rfl, ha ▸ .jne a⟩
  | jge opa => exact withReg_answers rfl fun a ha => .inl ⟨_, rfl, ha ▸ .jge a⟩
  | jle opa => exact withReg_answers rfl fun a ha => .inl ⟨_, rfl, ha ▸ .jle a⟩
  | jlt opa => exact withReg_answers rfl fun a ha => .inl ⟨_, rfl, ha ▸ .jlt a⟩
  | call opa =>
    refine withReg_answers rfl fun r hr => ?_
    subst hr
    split
    · exact .inr ⟨_, rfl, .inr (.call r (by omega))⟩
    · exact .inl ⟨_, rfl, .call r (by omega)⟩
  | ldi opa opb => exact withRegImm_answers fun a v ha hv => .inl ⟨_, rfl, ha ▸ hv ▸ .ldi a v⟩
  | ld opa opb => exact withTwoRegs_answers rfl (fun _ _ h => by cases h) fun a b ha hb => .inl ⟨_, rfl, ha ▸ hb ▸ .ld a b⟩
  | add v opa opb => exact withTwoRegs_answers rfl (fun _ _ h => by cases h) fun a b ha hb => .inl ⟨_, rfl, ha ▸ hb ▸ .add v a b⟩
  | sub v opa opb => exact withTwoRegs_answers rfl (fun _ _ h => by cases h) fun a b ha hb => .inl ⟨_, rfl, ha ▸ hb ▸ .sub v a b⟩
  | mul v opa opb => exact withTwoRegs_answers rfl (fun _ _ h => by cases h) fun a b ha hb => .inl ⟨_, rfl, ha ▸ hb ▸ .mul v a b⟩
  | and v opa opb => exact withTwoRegs_answers rfl (fun _ _ h => by cases h) fun a b ha hb => .inl ⟨_, rfl, ha ▸ hb ▸ .and v a b⟩
  | or v opa opb => exact withTwoRegs_answers rfl (fun _ _ h => by cases h) fun a b ha hb => .inl ⟨_, rfl, ha ▸ hb ▸ .or v a b⟩
  | xor v opa opb => exact withTwoRegs_answers rfl (fun _ _ h => by cases h) fun a b ha hb => .inl ⟨_, rfl, ha ▸ hb ▸ .xor v a b⟩
  | shl v opa opb => exact withTwoRegs_answers rfl (fun _ _ h => by cases h) fun a b ha hb => .inl ⟨_, rfl, ha ▸ hb ▸ .shl v a b⟩
  | shr v opa opb => exact withTwoRegs_answers rfl (fun _ _ h => by cases h) fun a b ha hb => .inl ⟨_, rfl, ha ▸ hb ▸ .shr v a b⟩
  | st v opa opb => exact withTwoRegs_answers rfl (fun _ _ h => by cases h) fun a b ha hb => .inl ⟨_, rfl, ha ▸ hb ▸ .st v a b⟩
  | cmp v opa opb => exact withTwoRegs_answers rfl (fun _ _ h => by cases h) fun a b ha hb => .inl ⟨_, rfl, ha ▸ hb ▸ .cmp v a b⟩
  | div v opa opb =>
    refine withTwoRegs_answers rfl (fun _ _ h => by cases h) fun a b ha hb => ?_
    subst ha hb
    split
    · exact .inr ⟨_, rfl, .inr (.div v a b (by assumption))⟩
    · exact .inl ⟨_, rfl, .div v a b (by assumption)⟩
  | mod v opa opb =>
    refine withTwoRegs_answers rfl (fun _ _ h => by cases h) fun a b ha hb => ?_
    subst ha hb
    split
    · exact .inr ⟨_, rfl, .inr (.mod v a b (by assumption))⟩
    · exact .inl ⟨_, rfl, .mod v a b (by assumption)⟩
  | inc v opa => exact withReg_answers rfl fun a ha => .inl ⟨_, rfl, ha ▸ .inc v a⟩
  | dec v opa => exact withReg_answers rfl fun a ha => .inl ⟨_, rfl, ha ▸ .dec v a⟩
  | not v opa => exact withReg_answers rfl fun a ha => .inl ⟨_, rfl, ha ▸ .not v a⟩

/-- A next state of `exec`: that of the instruction's rule, or the old one with a fault record (60 R150). -/
theorem exec_next_cases {i : Instr} {s t : State} (h : exec i s = .next t) :
    Completes s i t ∨
    ∃ r, t = { s with run := .faulted r } ∧ (OperandFault i s r ∨ OwnFault s i r) := by
  rcases exec_cases i s with ⟨u, hu, hc⟩ | ⟨r, hr, hf⟩
  · rw [hu] at h
    injection h with h
    exact .inl (h ▸ hc)
  · rw [hr] at h
    injection h with h
    exact .inr ⟨r, h.symm, hf⟩

/-- An instruction whose rule gives the state t answers it. -/
theorem exec_of_completes {i : Instr} {s t : State} (h : Completes s i t) : exec i s = .next t := by
  cases h
  case nop => rfl
  case hlt => rfl
  case ret => rfl
  case iret => rfl
  case prn a => exact withReg_regOp a s _
  case pra a => exact withReg_regOp a s _
  case push a => exact withReg_regOp a s _
  case pop a => exact withReg_regOp a s _
  case jmp a => exact withReg_regOp a s _
  case jeq a => exact withReg_regOp a s _
  case jne a => exact withReg_regOp a s _
  case jge a => exact withReg_regOp a s _
  case jle a => exact withReg_regOp a s _
  case jlt a => exact withReg_regOp a s _
  case call r h => exact (withReg_regOp r s _).trans (if_neg (by omega))
  case ldi a v => exact withRegImm_regOp a v s _
  case ld a b => exact withTwoRegs_regOp a b s _
  case add v a b => exact withTwoRegs_regOp a b s _
  case sub v a b => exact withTwoRegs_regOp a b s _
  case mul v a b => exact withTwoRegs_regOp a b s _
  case and v a b => exact withTwoRegs_regOp a b s _
  case or v a b => exact withTwoRegs_regOp a b s _
  case xor v a b => exact withTwoRegs_regOp a b s _
  case shl v a b => exact withTwoRegs_regOp a b s _
  case shr v a b => exact withTwoRegs_regOp a b s _
  case st v a b => exact withTwoRegs_regOp a b s _
  case cmp v a b => exact withTwoRegs_regOp a b s _
  case div v a b h => exact (withTwoRegs_regOp a b s _).trans (if_neg h)
  case mod v a b h => exact (withTwoRegs_regOp a b s _).trans (if_neg h)
  case inc v a => exact withReg_regOp a s _
  case dec v a => exact withReg_regOp a s _
  case not v a => exact withReg_regOp a s _

/-- A one-register instruction raises the fault of its operand. -/
theorem fault_of_one {i : Instr} {opa : Candidate} {s : State} {r : FaultRecord} {f : RegIndex → Result}
    (he : exec i s = withReg opa s f) (ho : operands i = [opa]) (h : OperandFault i s r) : exec i s = raise r s := by
  rcases h with ⟨c, rest, hc, hr⟩ | ⟨a, c, hc, -⟩
  · rw [ho] at hc
    injection hc with hc
    rw [he, hc]
    exact withReg_of_fault hr f
  · rw [ho] at hc
    injection hc with _ hc
    cases hc

/-- A two-register instruction raises the first fault of its operands. -/
theorem fault_of_two {i : Instr} {opa opb : Candidate} {s : State} {r : FaultRecord}
    {f : RegIndex → RegIndex → Result} (he : exec i s = withTwoRegs opa opb s f) (ho : operands i = [opa, opb])
    (h : OperandFault i s r) : exec i s = raise r s := by
  rcases h with ⟨c, rest, hc, hr⟩ | ⟨a, c, hc, hr, -⟩
  · rw [ho] at hc
    injection hc with hc
    rw [he, hc]
    exact withTwoRegs_of_fault_first hr _ f
  · rw [ho] at hc
    injection hc with ha hc
    injection hc with hc
    rw [he, ha, hc]
    exact withTwoRegs_of_fault_second hr a f

/-- An instruction with a fault of its operands or of its own raises it. -/
theorem exec_of_fault {i : Instr} {s : State} {r : FaultRecord} (h : OperandFault i s r ∨ OwnFault s i r) :
    exec i s = raise r s := by
  rcases h with h | h
  · cases i with
    | nop => rcases h with ⟨_, _, hc, -⟩ | ⟨_, _, hc, -⟩ <;> cases hc
    | hlt => rcases h with ⟨_, _, hc, -⟩ | ⟨_, _, hc, -⟩ <;> cases hc
    | ret => rcases h with ⟨_, _, hc, -⟩ | ⟨_, _, hc, -⟩ <;> cases hc
    | iret => rcases h with ⟨_, _, hc, -⟩ | ⟨_, _, hc, -⟩ <;> cases hc
    | push opa => exact fault_of_one rfl rfl h
    | pop opa => exact fault_of_one rfl rfl h
    | prn opa => exact fault_of_one rfl rfl h
    | pra opa => exact fault_of_one rfl rfl h
    | call opa => exact fault_of_one rfl rfl h
    | jmp opa => exact fault_of_one rfl rfl h
    | jeq opa => exact fault_of_one rfl rfl h
    | jne opa => exact fault_of_one rfl rfl h
    | jlt opa => exact fault_of_one rfl rfl h
    | jle opa => exact fault_of_one rfl rfl h
    | jge opa => exact fault_of_one rfl rfl h
    | inc v opa => exact fault_of_one rfl rfl h
    | dec v opa => exact fault_of_one rfl rfl h
    | not v opa => exact fault_of_one rfl rfl h
    | ld opa opb => exact fault_of_two rfl rfl h
    | add v opa opb => exact fault_of_two rfl rfl h
    | sub v opa opb => exact fault_of_two rfl rfl h
    | mul v opa opb => exact fault_of_two rfl rfl h
    | div v opa opb => exact fault_of_two rfl rfl h
    | mod v opa opb => exact fault_of_two rfl rfl h
    | cmp v opa opb => exact fault_of_two rfl rfl h
    | and v opa opb => exact fault_of_two rfl rfl h
    | or v opa opb => exact fault_of_two rfl rfl h
    | xor v opa opb => exact fault_of_two rfl rfl h
    | shl v opa opb => exact fault_of_two rfl rfl h
    | shr v opa opb => exact fault_of_two rfl rfl h
    | st v opa opb => exact fault_of_two rfl rfl h
    | ldi opa opb =>
      rcases h with ⟨c, rest, hc, hr⟩ | ⟨a, c, hc, hr, hn⟩
      · injection hc with hc
        subst hc
        exact withRegImm_of_fault_first hr opb _
      · injection hc with ha hc
        injection hc with hc
        subst ha hc
        have hn := hn _ _ rfl
        subst hn
        rcases hr with ⟨-, rfl⟩ | ⟨v, hv, -⟩
        · exact withRegImm_of_missing a s _
        · cases hv
  · cases h with
    | div v a b h => exact (withTwoRegs_regOp a b s _).trans (if_pos h)
    | mod v a b h => exact (withTwoRegs_regOp a b s _).trans (if_pos h)
    | call r h => exact (withReg_regOp r s _).trans (if_pos h)

end Sys2Proof.Machine
end

