-- ==== Sys2Proof/Laws/PerInstr.lean ====
section
/-! SUPPORT. Statements made per instruction. -/

namespace Sys2Proof.Laws.WordShape

/-- The word of an instruction says how it is routed, and a direct word's operand count is the number of operand bytes its
format consumes (30 R66, R69 (b), (d)). -/
def Statement (i : Instr) : Prop :=
  (encodeWord i).getLsbD 5 = isAluRouted i ∧ (isAluRouted i = false → wordCount i = (operands i).length)

/-- Bit 5 of every ALU-routed word is set (30 R61). -/
theorem aluWord_bit5 (code : BitVec 4) (v : AluBits) : (aluWord code v).getLsbD 5 = true := by
  obtain ⟨nn, b⟩ := v
  revert code nn b
  decide

theorem nop : Statement (.nop) :=
  ⟨by simp [encodeWord, isAluRouted], fun _ => by simp [wordCount, encodeWord, operandCount, operands]⟩
theorem hlt : Statement (.hlt) :=
  ⟨by simp [encodeWord, isAluRouted], fun _ => by simp [wordCount, encodeWord, operandCount, operands]⟩
theorem ret : Statement (.ret) :=
  ⟨by simp [encodeWord, isAluRouted], fun _ => by simp [wordCount, encodeWord, operandCount, operands]⟩
theorem iret : Statement (.iret) :=
  ⟨by simp [encodeWord, isAluRouted], fun _ => by simp [wordCount, encodeWord, operandCount, operands]⟩
theorem push (opa : Candidate) : Statement (.push opa) :=
  ⟨by simp [encodeWord, isAluRouted], fun _ => by simp [wordCount, encodeWord, operandCount, operands]⟩
theorem pop (opa : Candidate) : Statement (.pop opa) :=
  ⟨by simp [encodeWord, isAluRouted], fun _ => by simp [wordCount, encodeWord, operandCount, operands]⟩
theorem prn (opa : Candidate) : Statement (.prn opa) :=
  ⟨by simp [encodeWord, isAluRouted], fun _ => by simp [wordCount, encodeWord, operandCount, operands]⟩
theorem pra (opa : Candidate) : Statement (.pra opa) :=
  ⟨by simp [encodeWord, isAluRouted], fun _ => by simp [wordCount, encodeWord, operandCount, operands]⟩
theorem call (opa : Candidate) : Statement (.call opa) :=
  ⟨by simp [encodeWord, isAluRouted], fun _ => by simp [wordCount, encodeWord, operandCount, operands]⟩
theorem jmp (opa : Candidate) : Statement (.jmp opa) :=
  ⟨by simp [encodeWord, isAluRouted], fun _ => by simp [wordCount, encodeWord, operandCount, operands]⟩
theorem jeq (opa : Candidate) : Statement (.jeq opa) :=
  ⟨by simp [encodeWord, isAluRouted], fun _ => by simp [wordCount, encodeWord, operandCount, operands]⟩
theorem jne (opa : Candidate) : Statement (.jne opa) :=
  ⟨by simp [encodeWord, isAluRouted], fun _ => by simp [wordCount, encodeWord, operandCount, operands]⟩
theorem jlt (opa : Candidate) : Statement (.jlt opa) :=
  ⟨by simp [encodeWord, isAluRouted], fun _ => by simp [wordCount, encodeWord, operandCount, operands]⟩
theorem jle (opa : Candidate) : Statement (.jle opa) :=
  ⟨by simp [encodeWord, isAluRouted], fun _ => by simp [wordCount, encodeWord, operandCount, operands]⟩
theorem jge (opa : Candidate) : Statement (.jge opa) :=
  ⟨by simp [encodeWord, isAluRouted], fun _ => by simp [wordCount, encodeWord, operandCount, operands]⟩
theorem ldi (opa opb : Candidate) : Statement (.ldi opa opb) :=
  ⟨by simp [encodeWord, isAluRouted], fun _ => by simp [wordCount, encodeWord, operandCount, operands]⟩
theorem ld (opa opb : Candidate) : Statement (.ld opa opb) :=
  ⟨by simp [encodeWord, isAluRouted], fun _ => by simp [wordCount, encodeWord, operandCount, operands]⟩
theorem add (v : AluBits) (opa opb : Candidate) : Statement (.add v opa opb) := ⟨aluWord_bit5 _ v, fun h => by simp [isAluRouted] at h⟩
theorem sub (v : AluBits) (opa opb : Candidate) : Statement (.sub v opa opb) := ⟨aluWord_bit5 _ v, fun h => by simp [isAluRouted] at h⟩
theorem mul (v : AluBits) (opa opb : Candidate) : Statement (.mul v opa opb) := ⟨aluWord_bit5 _ v, fun h => by simp [isAluRouted] at h⟩
theorem div (v : AluBits) (opa opb : Candidate) : Statement (.div v opa opb) := ⟨aluWord_bit5 _ v, fun h => by simp [isAluRouted] at h⟩
theorem mod (v : AluBits) (opa opb : Candidate) : Statement (.mod v opa opb) := ⟨aluWord_bit5 _ v, fun h => by simp [isAluRouted] at h⟩
theorem inc (v : AluBits) (opa : Candidate) : Statement (.inc v opa) := ⟨aluWord_bit5 _ v, fun h => by simp [isAluRouted] at h⟩
theorem dec (v : AluBits) (opa : Candidate) : Statement (.dec v opa) := ⟨aluWord_bit5 _ v, fun h => by simp [isAluRouted] at h⟩
theorem cmp (v : AluBits) (opa opb : Candidate) : Statement (.cmp v opa opb) := ⟨aluWord_bit5 _ v, fun h => by simp [isAluRouted] at h⟩
theorem and (v : AluBits) (opa opb : Candidate) : Statement (.and v opa opb) := ⟨aluWord_bit5 _ v, fun h => by simp [isAluRouted] at h⟩
theorem not (v : AluBits) (opa : Candidate) : Statement (.not v opa) := ⟨aluWord_bit5 _ v, fun h => by simp [isAluRouted] at h⟩
theorem or (v : AluBits) (opa opb : Candidate) : Statement (.or v opa opb) := ⟨aluWord_bit5 _ v, fun h => by simp [isAluRouted] at h⟩
theorem xor (v : AluBits) (opa opb : Candidate) : Statement (.xor v opa opb) := ⟨aluWord_bit5 _ v, fun h => by simp [isAluRouted] at h⟩
theorem shl (v : AluBits) (opa opb : Candidate) : Statement (.shl v opa opb) := ⟨aluWord_bit5 _ v, fun h => by simp [isAluRouted] at h⟩
theorem shr (v : AluBits) (opa opb : Candidate) : Statement (.shr v opa opb) := ⟨aluWord_bit5 _ v, fun h => by simp [isAluRouted] at h⟩
theorem st (v : AluBits) (opa opb : Candidate) : Statement (.st v opa opb) := ⟨aluWord_bit5 _ v, fun h => by simp [isAluRouted] at h⟩

end Sys2Proof.Laws.WordShape
end

