-- ==== Sys2Proof/Laws/Step.lean ====
section
/-! SUPPORT. All that a step can do, said once. -/

namespace Sys2Proof.Machine

/-- A next state comes from a Running state alone (40 R80). -/
theorem running_of_step {s t : State} (h : step s = .next t) : s.run = .running := by
  unfold step at h
  split at h
  · assumption
  · simp at h
  · simp at h

/-- All that a step from a Running state can do: fault at the fetch, fault at the decoding, or run the instruction
(40 R89). -/
theorem step_cases {s t : State} (h : step s = .next t) :
    (255 < s.pc ∧ t = { s with run := .faulted (.outOfBounds (.mem s.pc)) }) ∨
    (s.pc ≤ 255 ∧ ∃ e, decodeWord (s.byteAt s.pc) = .error e ∧
      t = { s with run := .faulted (.decodeError e) }) ∨
    (s.pc ≤ 255 ∧ ∃ i, decode (s.byteAt s.pc) (candidate 1 s) (candidate 2 s) = .ok i ∧ exec i s = .next t) := by
  have hr := running_of_step h
  unfold step at h
  simp only [hr, fetchDecode, memRead] at h
  by_cases hp : 255 < s.pc
  · simp only [gt_iff_lt, hp, if_true, raise] at h
    injection h with h
    exact .inl ⟨hp, h.symm⟩
  · simp only [gt_iff_lt, hp, if_false] at h
    cases hd : decode (s.byteAt s.pc) (candidate 1 s) (candidate 2 s) with
    | error e =>
      simp only [hd, raise] at h
      injection h with h
      exact .inr (.inl ⟨by omega, e, decode_error_iff.mp hd, h.symm⟩)
    | ok i =>
      simp only [hd] at h
      exact .inr (.inr ⟨by omega, i, rfl, h⟩)

/-- The step at a word that decodes. -/
theorem step_of_decode {s : State} {i : Instr} (hr : s.run = .running) (hp : s.pc ≤ 255)
    (hd : decode (s.byteAt s.pc) (candidate 1 s) (candidate 2 s) = .ok i) : step s = exec i s := by
  have hp' : ¬ s.pc > 255 := by omega
  simp [step, hr, fetchDecode, memRead, hp', hd]

end Sys2Proof.Machine
end

