-- ==== Sys2Proof/Tests/Slice0.lean ====
section
/-! SUPPORT. Our own tests.  Expected values come from the vectors of spec/95 (their names, VA1 and so on, stand in the
comments), words from the tables of 30 R67 and R68, written out bit by bit; then, for every statement with hypotheses, a state
and operands that meet them. -/

namespace Sys2Proof.Tests

open Sys2Proof.Machine

/-! ### Helpers -/

/-- The reset state with these bytes at `pc`, this `pc` and these registers. -/
def boot (bytes : List Byte) (pc : Nat) (regs : List (RegIndex × Byte)) : State :=
  regs.foldl (fun s p => s.setReg p.1 p.2) { loadBytes bytes pc State.reset with pc := pc }

/-- The same with a value of FL. -/
def bootFlags (bytes : List Byte) (pc : Nat) (regs : List (RegIndex × Byte)) (fl : Byte) : State :=
  { boot bytes pc regs with fl := fl }

/-- The next state an outcome holds. -/
def nextState : Result → Option State
  | .next t => some t
  | .fault _ => none
  | .refused _ => none

/-- The state after one step. -/
def after (s : State) : Option State := nextState (step s)

/-- One register and `pc` after one step. -/
def regAfter (s : State) (i : RegIndex) : Option (Byte × Nat) := (after s).map fun t => (t.reg i, t.pc)

/-- FL and `pc` after one step. -/
def flagsAfter (s : State) : Option (Byte × Nat) := (after s).map fun t => (t.fl, t.pc)

/-- `run` and `pc` after one step. -/
def runAfter (s : State) : Option (RunState × Nat) := (after s).map fun t => (t.run, t.pc)

/-- A conditional jump of 95 section 2.4: `op 04` at 0x12 with x[4] = 0x1B; `pc` after it. -/
def jumpAfter (op fl : Byte) : Option Nat :=
  (after (bootFlags [op, 0x04#8] 0x12 [(4, 0x1B#8)] fl)).map fun t => t.pc

/-! ### Well-formedness: one ill-formed term for each check -/

theorem test_wf_register_missing : Instr.wf (.push none) = false := by decide
theorem test_wf_register_eight : Instr.wf (.push (some 8#8)) = false := by decide
theorem test_wf_second_register_eight : Instr.wf (.add ⟨2#2, false⟩ (some 0#8) (some 8#8)) = false := by decide
theorem test_wf_first_register_eight : Instr.wf (.ld (some 8#8) (some 0#8)) = false := by decide
theorem test_wf_immediate_missing : Instr.wf (.ldi (some 0#8) none) = false := by decide
theorem test_wf_unary_register_eight : Instr.wf (.inc ⟨1#2, false⟩ (some 8#8)) = false := by decide
theorem test_wf_register_seven : Instr.wf (.push (some 7#8)) = true := by decide
theorem test_wf_immediate_any : Instr.wf (.ldi (some 7#8) (some 255#8)) = true := by decide

/-! ### Decoding: every constructor, by its word written out from 30 R67 and R68 -/

theorem test_decode_no_operand (a b : Candidate) :
    decode 0b00000000#8 a b = .ok .nop ∧ decode 0b00000001#8 a b = .ok .hlt ∧
    decode 0b00010001#8 a b = .ok .ret ∧ decode 0b00010011#8 a b = .ok .iret :=
  ⟨rfl, rfl, rfl, rfl⟩

theorem test_decode_one_register (a b : Candidate) :
    decode 0b01000101#8 a b = .ok (.push a) ∧ decode 0b01000110#8 a b = .ok (.pop a) ∧
    decode 0b01000111#8 a b = .ok (.prn a) ∧ decode 0b01001000#8 a b = .ok (.pra a) ∧
    decode 0b01010000#8 a b = .ok (.call a) ∧ decode 0b01010100#8 a b = .ok (.jmp a) :=
  ⟨rfl, rfl, rfl, rfl, rfl, rfl⟩

theorem test_decode_conditional_jump (a b : Candidate) :
    decode 0b01010101#8 a b = .ok (.jeq a) ∧ decode 0b01010110#8 a b = .ok (.jne a) ∧
    decode 0b01011000#8 a b = .ok (.jlt a) ∧ decode 0b01011001#8 a b = .ok (.jle a) ∧
    decode 0b01011010#8 a b = .ok (.jge a) :=
  ⟨rfl, rfl, rfl, rfl, rfl⟩

theorem test_decode_load (a b : Candidate) :
    decode 0b10000010#8 a b = .ok (.ldi a b) ∧ decode 0b10000011#8 a b = .ok (.ld a b) :=
  ⟨rfl, rfl⟩

theorem test_decode_arithmetic (a b : Candidate) :
    decode 0b10100000#8 a b = .ok (.add ⟨2#2, false⟩ a b) ∧
    decode 0b10100001#8 a b = .ok (.sub ⟨2#2, false⟩ a b) ∧
    decode 0b10100010#8 a b = .ok (.mul ⟨2#2, false⟩ a b) ∧
    decode 0b10100011#8 a b = .ok (.div ⟨2#2, false⟩ a b) ∧
    decode 0b10100100#8 a b = .ok (.mod ⟨2#2, false⟩ a b) ∧
    decode 0b01100101#8 a b = .ok (.inc ⟨1#2, false⟩ a) ∧
    decode 0b01100110#8 a b = .ok (.dec ⟨1#2, false⟩ a) ∧
    decode 0b10100111#8 a b = .ok (.cmp ⟨2#2, false⟩ a b) :=
  ⟨rfl, rfl, rfl, rfl, rfl, rfl, rfl, rfl⟩

theorem test_decode_logic (a b : Candidate) :
    decode 0b10101000#8 a b = .ok (.and ⟨2#2, false⟩ a b) ∧
    decode 0b01101001#8 a b = .ok (.not ⟨1#2, false⟩ a) ∧
    decode 0b10101010#8 a b = .ok (.or ⟨2#2, false⟩ a b) ∧
    decode 0b10101011#8 a b = .ok (.xor ⟨2#2, false⟩ a b) ∧
    decode 0b10101100#8 a b = .ok (.shl ⟨2#2, false⟩ a b) ∧
    decode 0b10101101#8 a b = .ok (.shr ⟨2#2, false⟩ a b) ∧
    decode 0b10101110#8 a b = .ok (.st ⟨2#2, false⟩ a b) :=
  ⟨rfl, rfl, rfl, rfl, rfl, rfl, rfl⟩

/-- The aliases of 95 section 2.1. -/
theorem test_decode_alias :
    decodeWord 0b00100000#8 = .ok ⟨0, true, .alu .add⟩ ∧ decodeWord 0b00110000#8 = .ok ⟨0, true, .alu .add⟩ ∧
    decodeWord 0b01100000#8 = .ok ⟨1, true, .alu .add⟩ ∧ decodeWord 0b11100000#8 = .ok ⟨2, true, .alu .add⟩ ∧
    decodeWord 0b10100101#8 = .ok ⟨2, true, .alu .inc⟩ ∧ decodeWord 0b01111110#8 = .ok ⟨1, true, .alu .st⟩ :=
  ⟨rfl, rfl, rfl, rfl, rfl, rfl⟩

/-- The illegal words of 95 section 2.1. -/
theorem test_decode_illegal :
    decodeWord 0xAF#8 = .error (.alu 0xAF#8) ∧ decodeWord 0x2F#8 = .error (.alu 0x2F#8) ∧
    decodeWord 0xFF#8 = .error (.alu 0xFF#8) ∧ decodeWord 0x02#8 = .error (.direct 0x02#8) ∧
    decodeWord 0x52#8 = .error (.direct 0x52#8) ∧ decodeWord 0x57#8 = .error (.direct 0x57#8) ∧
    decodeWord 0x84#8 = .error (.direct 0x84#8) ∧ decodeWord 0x9F#8 = .error (.direct 0x9F#8) ∧
    decodeWord 0xC0#8 = .error (.direct 0xC0#8) :=
  ⟨rfl, rfl, rfl, rfl, rfl, rfl, rfl, rfl, rfl⟩

/-- The table's numbering: the second byte is bits 15 to 8. -/
theorem test_table_word_ldi : decodeTableWord 24 0x080082 = some (.ldi (some 0x00#8) (some 0x08#8)) := by decide

/-- Bits above nbits are zero. -/
theorem test_table_word_short : decodeTableWord 8 0xFF47 = some (.prn (some 0x00#8)) := by decide

theorem test_fetch_word_runs : (after (State.reset.withFetchWord 24 0x080082)).map (fun t => (t.reg 0, t.pc)) =
    some (0x08#8, 3) := by decide

/-! ### One step of each instruction -/

/-- VA1. -/
theorem test_add_wraps : regAfter (boot [0xA0#8, 0#8, 1#8] 0 [(0, 0xFA#8), (1, 0x0A#8)]) 0 = some (0x04#8, 3) := by decide
/-- VA3. -/
theorem test_add_same : regAfter (boot [0xA0#8, 2#8, 2#8] 0 [(2, 0x80#8)]) 2 = some (0x00#8, 3) := by decide
/-- VA4. -/
theorem test_sub_wraps : regAfter (boot [0xA1#8, 0#8, 1#8] 0 [(0, 3#8), (1, 5#8)]) 0 = some (0xFE#8, 3) := by decide
/-- VA9. -/
theorem test_mul_low_byte : regAfter (boot [0xA2#8, 0#8, 1#8] 0 [(0, 0xFF#8), (1, 0xFF#8)]) 0 = some (0x01#8, 3) := by decide
/-- VA10. -/
theorem test_div : regAfter (boot [0xA3#8, 0#8, 1#8] 0 [(0, 0xC8#8), (1, 7#8)]) 0 = some (0x1C#8, 3) := by decide
/-- VF20. -/
theorem test_div_zero : runAfter (boot [0xA3#8, 0#8, 1#8] 0x10 [(0, 0xC8#8)]) =
    some (.faulted (.divideByZero .div), 0x10) := by decide
/-- VA16. -/
theorem test_mod : regAfter (boot [0xA4#8, 0#8, 1#8] 0 [(0, 0xC8#8), (1, 7#8)]) 0 = some (0x04#8, 3) := by decide
/-- VA19. -/
theorem test_mod_zero : runAfter (boot [0xA4#8, 0#8, 1#8] 0 [(0, 0xC8#8)]) =
    some (.faulted (.divideByZero .mod), 0) := by decide
/-- VA20. -/
theorem test_inc_wraps : regAfter (boot [0x65#8, 2#8] 0 [(2, 0xFF#8)]) 2 = some (0x00#8, 2) := by decide
/-- VA53: the skipped byte 09 is not checked. -/
theorem test_inc_alias : regAfter (boot [0xA5#8, 0#8, 9#8] 0 [(0, 1#8)]) 0 = some (0x02#8, 3) := by decide
/-- VA23. -/
theorem test_dec_wraps : regAfter (boot [0x66#8, 2#8] 0 []) 2 = some (0xFF#8, 2) := by decide
/-- VA25: the order is unsigned. -/
theorem test_cmp_unsigned : flagsAfter (boot [0xA7#8, 0#8, 1#8] 0 [(0, 0x80#8), (1, 0x7F#8)]) = some (0x02#8, 3) := by decide
/-- VA26: bits 7 to 3 are cleared. -/
theorem test_cmp_clears : flagsAfter (bootFlags [0xA7#8, 0#8, 1#8] 0 [(0, 9#8), (1, 9#8)] 0xFC#8) = some (0x01#8, 3) := by decide
/-- VA29. -/
theorem test_and : regAfter (boot [0xA8#8, 0#8, 1#8] 0 [(0, 0xCC#8), (1, 0xAA#8)]) 0 = some (0x88#8, 3) := by decide
/-- VA31. -/
theorem test_or : regAfter (boot [0xAA#8, 0#8, 1#8] 0 [(0, 0xCC#8), (1, 0xAA#8)]) 0 = some (0xEE#8, 3) := by decide
/-- VA32. -/
theorem test_xor : regAfter (boot [0xAB#8, 0#8, 1#8] 0 [(0, 0xCC#8), (1, 0xAA#8)]) 0 = some (0x66#8, 3) := by decide
/-- VA34. -/
theorem test_not : regAfter (boot [0x69#8, 0#8] 0 [(0, 0x0F#8)]) 0 = some (0xF0#8, 2) := by decide
/-- VA41. -/
theorem test_shl_same : regAfter (boot [0xAC#8, 0#8, 0#8] 0 [(0, 3#8)]) 0 = some (0x18#8, 3) := by decide
/-- VA38: an amount of 8 is not masked. -/
theorem test_shl_eight : regAfter (boot [0xAC#8, 0#8, 1#8] 0 [(0, 0xFF#8), (1, 8#8)]) 0 = some (0x00#8, 3) := by decide
/-- VA43: logical. -/
theorem test_shr_logical : regAfter (boot [0xAD#8, 0#8, 1#8] 0 [(0, 0x80#8), (1, 7#8)]) 0 = some (0x01#8, 3) := by decide
/-- VA44. -/
theorem test_shr_eight : regAfter (boot [0xAD#8, 0#8, 1#8] 0 [(0, 0xFF#8), (1, 8#8)]) 0 = some (0x00#8, 3) := by decide
/-- VA47. -/
theorem test_st_copies : regAfter (boot [0xAE#8, 7#8, 1#8] 0 [(1, 0x10#8)]) 7 = some (0x10#8, 3) := by decide

/-- VK1. -/
theorem test_nop : after (boot [0#8] 4 []) = some (boot [0#8] 5 []) := by decide
/-- VK4. -/
theorem test_ldi : regAfter (boot [0x82#8, 3#8, 0xFF#8] 0 []) 3 = some (0xFF#8, 3) := by decide
/-- VF3. -/
theorem test_ldi_off_the_end : runAfter (boot [0x82#8, 0#8] 254 []) =
    some (.faulted (.outOfBounds (.mem 256)), 254) := by decide
/-- VK6b: LD reads its own word. -/
theorem test_ld_own_word : regAfter (boot [0x83#8, 0#8, 1#8] 0x20 [(1, 0x20#8)]) 0 = some (0x83#8, 0x23) := by decide
/-- VF7: the first operand is checked first. -/
theorem test_ld_first_checked_first : runAfter (boot [0x83#8, 9#8, 8#8] 0 []) =
    some (.faulted (.outOfBounds (.reg 9#8)), 0) := by decide
/-- VK16. -/
theorem test_prn : (after (boot [0x47#8, 2#8] 0 [(2, 0xFF#8)])).map (fun t => (t.out, t.pc)) =
    some ([⟨.num, 0xFF#8⟩], 2) := by decide
/-- VK18. -/
theorem test_pra : (after (boot [0x48#8, 0#8] 0 [(0, 0xC8#8)])).map (fun t => (t.out, t.pc)) =
    some ([⟨.chr, 0xC8#8⟩], 2) := by decide
/-- VK8: the decremented value is stored. -/
theorem test_push_sp : (after (boot [0x45#8, 7#8] 0 [])).map (fun t => (t.reg 7, t.byteAt 0xF3, t.pc)) =
    some (0xF3#8, 0xF3#8, 2) := by decide
/-- VK9: the stack pointer wraps. -/
theorem test_push_wraps : (after (boot [0x45#8, 0#8] 0x10 [(0, 0x2A#8), (7, 0#8)])).map
    (fun t => (t.reg 7, t.byteAt 0xFF, t.pc)) = some (0xFF#8, 0x2A#8, 0x12) := by decide
/-- VK11: loaded, then incremented. -/
theorem test_pop_sp : regAfter ((boot [0x46#8, 7#8] 0 [(7, 0xF3#8)]).setByte 0xF3 0x10#8) 7 = some (0x11#8, 2) := by decide
/-- VK12: the stack pointer wraps. -/
theorem test_pop_wraps : (after ((boot [0x46#8, 0#8] 0 [(7, 0xFF#8)]).setByte 0xFF 0x77#8)).map
    (fun t => (t.reg 0, t.reg 7, t.pc)) = some (0x77#8, 0x00#8, 2) := by decide

/-- VT2: the target is read after the push. -/
theorem test_call_sp : (after (boot [0x50#8, 7#8] 6 [])).map (fun t => (t.reg 7, t.byteAt 0xF3, t.pc)) =
    some (0xF3#8, 0x08#8, 0xF3) := by decide
/-- VT4: nothing is pushed. -/
theorem test_call_at_254 : (after (boot [0x50#8, 1#8] 254 [(1, 0x0C#8)])).map (fun t => (t.run, t.reg 7, t.byteAt 0xF3)) =
    some (.faulted (.outOfBounds (.mem 256)), 0xF4#8, 0#8) := by decide
/-- VT5. -/
theorem test_ret : regAfter ((boot [0x11#8] 0x0C [(7, 0xF3#8)]).setByte 0xF3 0x08#8) 7 = some (0xF4#8, 8) := by decide
/-- VT8. -/
theorem test_jmp_self : after (boot [0x54#8, 3#8] 0x20 [(3, 0x20#8)]) = some (boot [0x54#8, 3#8] 0x20 [(3, 0x20#8)]) := by decide
/-- 95 section 2.4, the table of conditional jumps. -/
theorem test_jeq : [0x00#8, 0x01#8, 0x02#8, 0x04#8, 0x07#8, 0xF8#8].map (jumpAfter 0x55#8) =
    [some 0x14, some 0x1B, some 0x14, some 0x14, some 0x1B, some 0x14] := by decide
theorem test_jne : [0x00#8, 0x01#8, 0x02#8, 0x04#8, 0x07#8, 0xF8#8].map (jumpAfter 0x56#8) =
    [some 0x1B, some 0x14, some 0x1B, some 0x1B, some 0x14, some 0x1B] := by decide
theorem test_jge : [0x00#8, 0x01#8, 0x02#8, 0x04#8, 0x07#8, 0xF8#8].map (jumpAfter 0x5A#8) =
    [some 0x14, some 0x1B, some 0x1B, some 0x14, some 0x1B, some 0x14] := by decide
theorem test_jle : [0x00#8, 0x01#8, 0x02#8, 0x04#8, 0x07#8, 0xF8#8].map (jumpAfter 0x59#8) =
    [some 0x14, some 0x1B, some 0x14, some 0x1B, some 0x1B, some 0x14] := by decide
theorem test_jlt : [0x00#8, 0x01#8, 0x02#8, 0x04#8, 0x07#8, 0xF8#8].map (jumpAfter 0x58#8) =
    [some 0x14, some 0x14, some 0x14, some 0x1B, some 0x1B, some 0x14] := by decide
/-- VF13: the operand is checked when the jump does not fire. -/
theorem test_jeq_checks : runAfter (boot [0x55#8, 8#8] 0 []) = some (.faulted (.outOfBounds (.reg 8#8)), 0) := by decide
/-- VT10: the stack pointer wraps in the middle of the nine pops. -/
theorem test_iret_wraps : (after (loadBytes [0x12#8, 0x11#8, 0x10#8, 0x07#8, 0x30#8] 0
      (loadBytes [0x16#8, 0x15#8, 0x14#8, 0x13#8] 0xFC (boot [0x13#8] 0x20 [(7, 0xFC#8)])))).map
    (fun t => (t.x, t.fl, t.pc)) =
    some (#v[0x10#8, 0x11#8, 0x12#8, 0x13#8, 0x14#8, 0x15#8, 0x16#8, 0x05#8], 0x07#8, 0x30) := by decide
/-- VT12: the unconsumed bytes beyond memory are no fault. -/
theorem test_hlt_at_255 : runAfter (boot [0x01#8] 255 []) = some (.halted, 255) := by decide

/-! ### Faults outside one instruction -/

/-- VF18: decoding comes before any operand. -/
theorem test_decode_error_at_255 : runAfter (boot [0xAF#8] 255 []) =
    some (.faulted (.decodeError (.alu 0xAF#8)), 255) := by decide
/-- VF22: an alias of ADD with n = 0 still consumes its second operand. -/
theorem test_alias_consumes : runAfter (boot [0x20#8, 0#8] 254 []) =
    some (.faulted (.outOfBounds (.mem 256)), 254) := by decide
/-- VF1, its second step. -/
theorem test_fetch_beyond : runAfter { State.reset with pc := 256 } =
    some (.faulted (.outOfBounds (.mem 256)), 256) := by decide

/-! ### Witnesses: for each statement with hypotheses, a state and operands that meet them, clause by clause -/

/-- A step from a Running state that goes to `t`. -/
def StepsTo (s t : State) : Prop := s.run = .running ∧ step s = .next t

/-- ResetLeavesTheStatedValues: a register that is not the stack pointer. -/
theorem witness_reset : (6 : RegIndex) ≠ 7 := by decide

/-- LoadWritesItsBytesOnly: 254 + 2 = 256 is loaded, 254 + 3 is refused; a byte of the list, an address outside it. -/
theorem witness_load : 254 + [1#8, 2#8].length ≤ 256 ∧ [1#8, 2#8][1]? = some 2#8 ∧ 253 < 254 ∧
    256 < 254 + [1#8, 2#8, 3#8].length := by decide

/-- LaunchIsResetButForMemory, EntryPointIsAddressZero: two loads; the word at 0 is NOP, or is rejected. -/
theorem witness_launch :
    launch [([0x01#8], 0x10), ([7#8], 255)] = .next ((State.reset.setByte 0x10 1#8).setByte 255 7#8) ∧
    decode (((State.reset.setByte 0x10 1#8).setByte 255 7#8).byteAt 0) (some 0#8) (some 0#8) = .ok .nop ∧
    launch [([0xAF#8], 0)] = .next (State.reset.setByte 0 0xAF#8) ∧
    decodeWord ((State.reset.setByte 0 0xAF#8).byteAt 0) = .error (.alu 0xAF#8) :=
  ⟨rfl, rfl, rfl, rfl⟩

/-- UnloadedProgramWalksOffTheEnd: the least and the greatest number of steps. -/
theorem witness_unloaded : 0 ≤ 256 ∧ (256 : Nat) ≤ 256 := by decide

/-- MemReadIsChecked, MemWriteIsCheckedAndLocal: the last address there is, the first there is not. -/
theorem witness_memory_bounds : (255 : Nat) ≤ 255 ∧ 255 < 256 := by decide

/-- EqualContentsAreEqualMemories. -/
theorem witness_equal_memories : Memory.wf [(5, 1#8), (255, 2#8)] ∧
    ∀ a, Memory.get [(5, 1#8), (255, 2#8)] a = Memory.get [(5, 1#8), (255, 2#8)] a :=
  ⟨by decide, fun _ => rfl⟩

/-- OperandCountFromTopBits: a word for each count code, decoded, and an advancing instruction. -/
theorem witness_operand_count :
    (0x3F#8).toNat / 64 = 0 ∧ (0x40#8).toNat / 64 = 1 ∧ (0xBF#8).toNat / 64 = 2 ∧ (0xC0#8).toNat / 64 = 3 ∧
    decodeWord 0xE0#8 = .ok ⟨2, true, .alu .add⟩ ∧
    decode 0xE0#8 (regOp 0) (regOp 1) = .ok (.add ⟨3#2, false⟩ (regOp 0) (regOp 1)) ∧
    AdvancesSequentially (.add ⟨3#2, false⟩ (regOp 0) (regOp 1)) State.reset ∧ State.reset.run = .running ∧
    exec (.add ⟨3#2, false⟩ (regOp 0) (regOp 1)) State.reset = .next { State.reset with pc := 3 } :=
  ⟨by decide, by decide, by decide, by decide, rfl, rfl, .inl rfl, rfl, rfl⟩

/-- DecoderFollowsTheTwoTables: the four clauses. -/
theorem witness_decoder :
    (0x2E#8).getLsbD 5 = true ∧ aluTable ((0x2E#8).extractLsb' 0 4) = some .st ∧
    (0x2F#8).getLsbD 5 = true ∧ aluTable ((0x2F#8).extractLsb' 0 4) = none ∧
    (0x83#8).getLsbD 5 = false ∧ directTable 0x83#8 = some .ld ∧
    (0x84#8).getLsbD 5 = false ∧ directTable 0x84#8 = none := by decide

/-- IllegalWordsAreRejectedByName. -/
theorem witness_illegal : decode 0x57#8 none none = .error (.direct 0x57#8) ∧ decode 0xAF#8 none none = .error (.alu 0xAF#8) :=
  ⟨rfl, rfl⟩

/-- DecodeEncodeRoundTrip: every format, at the ends of the operands' ranges. -/
theorem witness_round_trip : Instr.wf .iret = true ∧ Instr.wf (.jge (some 7#8)) = true ∧
    Instr.wf (.ldi (some 0#8) (some 255#8)) = true ∧ Instr.wf (.st ⟨0#2, true⟩ (some 7#8) (some 7#8)) = true := by decide

/-- EncodeDecodeRoundTrip, UnconsumedBytesAreIgnored: an instruction of two, of one and of no operand bytes. -/
theorem witness_decoded :
    decode 0x83#8 (some 1#8) none = .ok (.ld (some 1#8) none) ∧
    decode 0x75#8 (some 9#8) none = .ok (.inc ⟨1#2, true⟩ (some 9#8)) ∧ (operands (.inc ⟨1#2, true⟩ (some 9#8))).length ≤ 1 ∧
    decode 0x13#8 none (some 2#8) = .ok .iret ∧ (operands .iret).length = 0 :=
  ⟨rfl, rfl, by decide, rfl, rfl⟩

/-- AliasesDifferOnlyInTheAdvance. -/
theorem witness_aliases : (0xA0#8).getLsbD 5 = true ∧ (0x30#8).getLsbD 5 = true ∧
    (0xA0#8).toNat % 16 = (0x30#8).toNat % 16 ∧
    decode 0xA0#8 (regOp 0) (regOp 1) = .ok (.add ⟨2#2, false⟩ (regOp 0) (regOp 1)) :=
  ⟨rfl, rfl, rfl, rfl⟩

/-- StepRunsTheDecodedInstruction: an illegal word at 255, and PUSH at 255, whose operand is not there. -/
theorem witness_step_runs :
    (boot [0xAF#8] 255 []).run = .running ∧ (boot [0xAF#8] 255 []).pc ≤ 255 ∧
    decodeWord ((boot [0xAF#8] 255 []).byteAt 255) = .error (.alu 0xAF#8) ∧
    (boot [0x45#8] 255 []).run = .running ∧ (boot [0x45#8] 255 []).pc ≤ 255 ∧
    decode ((boot [0x45#8] 255 []).byteAt 255)
      (if (boot [0x45#8] 255 []).pc + 1 ≤ 255 then some ((boot [0x45#8] 255 []).byteAt 256) else none)
      (if (boot [0x45#8] 255 []).pc + 2 ≤ 255 then some ((boot [0x45#8] 255 []).byteAt 257) else none) =
        .ok (.push none) :=
  ⟨rfl, by decide, rfl, rfl, by decide, rfl⟩

/-- StepRunsTheEncodedInstruction: the last place where three bytes fit. -/
theorem witness_step_encoded :
    (boot [0x82#8, 7#8, 255#8] 253 []).run = .running ∧ Instr.wf (.ldi (regOp 7) (some 255#8)) = true ∧
    ∀ (k : Nat) (v : Byte), (encode (.ldi (regOp 7) (some 255#8)))[k]? = some v →
      (boot [0x82#8, 7#8, 255#8] 253 []).pc + k ≤ 255 ∧
      (boot [0x82#8, 7#8, 255#8] 253 []).byteAt ((boot [0x82#8, 7#8, 255#8] 253 []).pc + k) = v := by
  refine ⟨rfl, by decide, fun k v h => ?_⟩
  match k with
  | 0 => exact ⟨by decide, Option.some.inj h⟩
  | 1 => exact ⟨by decide, Option.some.inj h⟩
  | 2 => exact ⟨by decide, Option.some.inj h⟩
  | k + 3 => cases h

/-- StepExistsExactlyWhenRunning: its three clauses. -/
theorem witness_run_states : State.reset.run = .running ∧ ({ State.reset with run := .halted } : State).run = .halted ∧
    ({ State.reset with run := .faulted (.divideByZero .div) } : State).run = .faulted (.divideByZero .div) :=
  ⟨rfl, rfl, rfl⟩

/-- DecodeErrorExactlyOnRejectedWords. -/
theorem witness_decode_error :
    StepsTo (boot [0x57#8] 255 []) { boot [0x57#8] 255 [] with run := .faulted (.decodeError (.direct 0x57#8)) } ∧
    decodeWord 0x57#8 = .error (.direct 0x57#8) :=
  ⟨⟨rfl, rfl⟩, rfl⟩

/-- StoppingChangesOnlyRun, HaltedOnlyByHlt: a step that halts, at the last address. -/
theorem witness_halting :
    StepsTo (boot [0x01#8] 255 []) { boot [0x01#8] 255 [] with run := .halted } ∧
    ({ boot [0x01#8] 255 [] with run := .halted } : State).run ≠ .running :=
  ⟨⟨rfl, rfl⟩, by decide⟩

/-- OutOfBoundsOnlyAsListed: the fetch; PUSH at 255; LDI at 254; CALL at 254; a register index of 8, LDI's too. -/
theorem witness_out_of_bounds :
    StepsTo { State.reset with pc := 256 } { State.reset with pc := 256, run := .faulted (.outOfBounds (.mem 256)) } ∧
    StepsTo (boot [0x45#8] 255 []) { boot [0x45#8] 255 [] with run := .faulted (.outOfBounds (.mem 256)) } ∧
    StepsTo (boot [0x82#8, 0#8] 254 []) { boot [0x82#8, 0#8] 254 [] with run := .faulted (.outOfBounds (.mem 256)) } ∧
    StepsTo (boot [0x50#8, 1#8] 254 []) { boot [0x50#8, 1#8] 254 [] with run := .faulted (.outOfBounds (.mem 256)) } ∧
    StepsTo (boot [0x47#8, 8#8] 0 []) { boot [0x47#8, 8#8] 0 [] with run := .faulted (.outOfBounds (.reg 8#8)) } ∧
    StepsTo (boot [0x82#8, 8#8, 1#8] 0 [])
      { boot [0x82#8, 8#8, 1#8] 0 [] with run := .faulted (.outOfBounds (.reg 8#8)) } :=
  ⟨⟨rfl, rfl⟩, ⟨rfl, rfl⟩, ⟨rfl, rfl⟩, ⟨rfl, rfl⟩, ⟨rfl, rfl⟩, ⟨rfl, rfl⟩⟩

/-- OperandFaultsArePreciseAndOrdered, and FaultsOnFirst, FaultsOnBoth, StopsOnOne, StopsOnTwo in the statements of the
instructions: an operand list of each kind, the least index that faults and the greatest that does not. -/
theorem witness_operand_faults :
    operands (.push none) = none :: [] ∧ operands (.add ⟨2#2, false⟩ (some 8#8) none) = some 8#8 :: [none] ∧
    operands (.ld (regOp 7) none) = [regOp 7, none] ∧ operands (.ld (regOp 0) (some 8#8)) = [regOp 0, some 8#8] ∧
    (∀ x y, Instr.ld (regOp 0) (some 8#8) ≠ .ldi x y) ∧ 7 < (8#8).toNat ∧ (7#8).toNat ≤ 7 :=
  ⟨rfl, rfl, rfl, rfl, (fun _ _ h => nomatch h), by decide, by decide⟩

/-- GoodStateAtReset, StepKeepsGoodState: reset is good and steps. -/
theorem witness_good_state : GoodState State.reset ∧ StepsTo State.reset { State.reset with pc := 1 } :=
  ⟨⟨by decide, by decide, by decide, (fun _ h => nomatch h)⟩, rfl, rfl⟩

/-- OnlyPushAndCallWriteMemory: a PUSH that changes the byte at 0xF3. -/
theorem witness_memory_changes :
    StepsTo (boot [0x45#8, 0#8] 0 [(0, 0x2A#8)])
      { (boot [0x45#8, 0#8] 0 [(0, 0x2A#8), (7, 0xF3#8)]).setByte 0xF3 0x2A#8 with pc := 2 } ∧
    ({ (boot [0x45#8, 0#8] 0 [(0, 0x2A#8), (7, 0xF3#8)]).setByte 0xF3 0x2A#8 with pc := 2 } : State).byteAt 0xF3 ≠
      (boot [0x45#8, 0#8] 0 [(0, 0x2A#8)]).byteAt 0xF3 :=
  ⟨⟨rfl, rfl⟩, by decide⟩

/-- OnlyPrnAndPraEmit, OutputIsNeverRead: a step that emits. -/
theorem witness_emits : StepsTo (boot [0x47#8, 0#8] 0 [(0, 8#8)])
    { boot [0x47#8, 0#8] 0 [(0, 8#8)] with pc := 2, out := [⟨.num, 8#8⟩] } :=
  ⟨rfl, rfl⟩

/-- FlagsHaveTwoWritersAndFiveReaders: a CMP and an IRET that change FL; for each reader a FL that differs in the bits it
does not read, and a target that is not the next instruction. -/
theorem witness_flags :
    (State.reset.reg 0).toNat ≠ State.reset.pc + 2 ∧
    exec (.cmp ⟨2#2, false⟩ (regOp 0) (regOp 1)) State.reset = .next { State.reset with fl := 1#8, pc := 3 } ∧
    ({ State.reset with fl := 1#8, pc := 3 } : State).fl ≠ State.reset.fl ∧
    exec .iret (State.reset.setByte 0xFB 7#8) = .next { (State.reset.setByte 0xFB 7#8).setReg 7 0xFD#8 with fl := 7#8 } ∧
    (∃ t, exec (.jeq (regOp 0)) State.reset = .next t) ∧ (0xFE#8).getLsbD 0 = State.reset.fl.getLsbD 0 ∧
    (∃ t, exec (.jge (regOp 0)) State.reset = .next t) ∧ (0xFC#8).getLsbD 1 = State.reset.fl.getLsbD 1 ∧
    (∃ t, exec (.jle (regOp 0)) State.reset = .next t) ∧ (0xFA#8).getLsbD 2 = State.reset.fl.getLsbD 2 ∧
    (∃ t, exec (.jlt (regOp 0)) State.reset = .next t) ∧ (0xFB#8).getLsbD 2 = State.reset.fl.getLsbD 2 :=
  ⟨by decide, rfl, by decide, rfl, ⟨_, rfl⟩, rfl, ⟨_, rfl⟩, rfl, ⟨_, rfl⟩, rfl, ⟨_, rfl⟩, rfl⟩

/-- SequentialAdvanceByOperandCount: the jumps that do not fire, on a FL where each does not; one direct instruction of
each count, and an ALU-routed one. -/
theorem witness_advance :
    AdvancesSequentially (.jeq (regOp 0)) State.reset ∧ AdvancesSequentially (.jge (regOp 0)) State.reset ∧
    AdvancesSequentially (.jle (regOp 0)) State.reset ∧ AdvancesSequentially (.jlt (regOp 0)) State.reset ∧
    AdvancesSequentially (.jne (regOp 0)) { State.reset with fl := 1#8 } ∧
    AdvancesSequentially (.pop (regOp 0)) State.reset ∧ AdvancesSequentially .nop State.reset ∧
    AdvancesSequentially (.ld (regOp 0) (regOp 0)) State.reset ∧
    AdvancesSequentially (.not ⟨1#2, false⟩ (regOp 0)) State.reset ∧
    ({ State.reset with pc := 255 } : State).run = .running ∧ exec .nop { State.reset with pc := 255 } = .next { State.reset with pc := 256 } := by
  refine ⟨?_, ?_, ?_, ?_, ?_, ?_, ?_, ?_, ?_, rfl, rfl⟩ <;> simp [AdvancesSequentially, isAluRouted, State.reset, Config.flReset]

/-- DivGivesTheQuotient, ModGivesTheRemainder: a divisor that is not zero, one that is. -/
theorem witness_divisor : (State.reset.setReg 1 1#8).reg 1 ≠ 0 ∧ State.reset.reg 1 = 0 := by decide

/-- DivideByZeroOnlyByDivAndMod. -/
theorem witness_divide_by_zero : State.reset.run = .running ∧
    exec (.mod ⟨2#2, false⟩ (regOp 0) (regOp 1)) State.reset =
      .next { State.reset with run := .faulted (.divideByZero .mod) } :=
  ⟨rfl, rfl⟩

/-- CmpWritesTheUnsignedOrder: equal; greater and less across 0x80. -/
theorem witness_order : (State.reset.reg 0).toNat = (State.reset.reg 1).toNat ∧
    ((State.reset.setReg 0 0x80#8).reg 0).toNat > ((State.reset.setReg 1 0x7F#8).reg 1).toNat ∧
    ((State.reset.setReg 0 0x7F#8).reg 0).toNat < ((State.reset.setReg 1 0x80#8).reg 1).toNat := by decide

/-- NopOnlyAdvances, its second clause. -/
theorem witness_nop : (boot [0x00#8] 255 []).run = .running ∧ (boot [0x00#8] 255 []).pc = 255 ∧
    (boot [0x00#8] 255 []).byteAt 255 = 0x00#8 := by decide

/-- PushStoresBelowTheStackPointer, PopLoadsThenIncrements, PushThenPopRoundTrips: a register that is not the stack
pointer, and the stack pointer. -/
theorem witness_stack_register : (6 : RegIndex) ≠ 7 ∧ (7 : RegIndex) = 7 := by decide

/-- PushedByteIsFetchedNext: the PUSH of program P8, which writes the next word; a PUSH at 253 whose slot wraps to 255, the
next word; PUSH R7; a CALL R7 (VT2), which goes to its own slot, where the rejected byte 0x08 now lies. -/
theorem witness_pushed_byte :
    decode ((boot [0x45#8, 0#8, 0xAF#8] 6 [(0, 1#8), (7, 9#8)]).byteAt 6)
      (candidate 1 (boot [0x45#8, 0#8, 0xAF#8] 6 [(0, 1#8), (7, 9#8)]))
      (candidate 2 (boot [0x45#8, 0#8, 0xAF#8] 6 [(0, 1#8), (7, 9#8)])) = .ok (.push (regOp 0)) ∧
    StepsTo (boot [0x45#8, 0#8, 0xAF#8] 6 [(0, 1#8), (7, 9#8)])
      { boot [0x45#8, 0#8, 0x01#8] 6 [(0, 1#8), (7, 8#8)] with pc := 8 } ∧
    (decode (byteWith (boot [0x45#8, 0#8, 0xAF#8] 6 []) 8 1#8 8) (some 0#8) (some 0#8) = .ok .hlt) ∧
    StepsTo (boot [0x45#8, 0#8, 0xAF#8] 253 [(0, 1#8), (7, 0#8)])
      { boot [0x45#8, 0#8, 0x01#8] 253 [(0, 1#8), (7, 255#8)] with pc := 255 } ∧
    decode ((boot [0x45#8, 7#8] 253 []).byteAt 253) (candidate 1 (boot [0x45#8, 7#8] 253 []))
      (candidate 2 (boot [0x45#8, 7#8] 253 [])) = .ok (.push (regOp 7)) ∧
    decode ((boot [0x50#8, 7#8] 6 []).byteAt 6) (candidate 1 (boot [0x50#8, 7#8] 6 []))
      (candidate 2 (boot [0x50#8, 7#8] 6 [])) = .ok (.call (regOp 7)) ∧
    StepsTo (boot [0x50#8, 7#8] 6 []) { (boot [0x50#8, 7#8] 6 [(7, 0xF3#8)]).setByte 0xF3 8#8 with pc := 0xF3 } ∧
    decodeWord (byteWith (boot [0x50#8, 7#8] 6 []) 0xF3 8#8 0xF3) = .error (.direct 8#8) :=
  ⟨rfl, ⟨rfl, rfl⟩, rfl, ⟨rfl, rfl⟩, rfl, rfl, ⟨rfl, rfl⟩, rfl⟩

/-- CallPushesTheReturnAddress: the last address a CALL completes at, the first it does not (VT3, VT4). -/
theorem witness_call : (boot [0x50#8, 1#8] 253 []).pc ≤ 253 ∧ 253 < (boot [0x50#8, 1#8] 254 []).pc := by decide

/-- CallThenRetReturns: the state after the CALL itself will do for the state before the RET (VT3). -/
theorem witness_call_ret :
    exec (.call (regOp 1)) (boot [0x50#8, 1#8] 253 [(1, 0x0C#8)]) =
      .next { (boot [0x50#8, 1#8] 253 [(1, 0x0C#8), (7, 0xF3#8)]).setByte 0xF3 0xFF#8 with pc := 0x0C } :=
  rfl

/-- JmpGoesToTheRegister, its second clause (VT8). -/
theorem witness_jmp_self : ((boot [0x54#8, 3#8] 0x20 [(3, 0x20#8)]).reg 3).toNat =
    (boot [0x54#8, 3#8] 0x20 [(3, 0x20#8)]).pc := by decide

/-- JeqAndJneTestEqual, OrderJumpsTestTheirBits: a FL on which each jump fires and one on which it does not. -/
theorem witness_jumps :
    ((1#8).getLsbD 0 = true ∧ ¬ (0xFE#8).getLsbD 0 = true) ∧ ((0xFE#8).getLsbD 0 = false ∧ ¬ (1#8).getLsbD 0 = false) ∧
    (((2#8).getLsbD 0 = true ∨ (2#8).getLsbD 1 = true) ∧ ¬ ((4#8).getLsbD 0 = true ∨ (4#8).getLsbD 1 = true)) ∧
    (((4#8).getLsbD 0 = true ∨ (4#8).getLsbD 2 = true) ∧ ¬ ((2#8).getLsbD 0 = true ∨ (2#8).getLsbD 2 = true)) ∧
    ((4#8).getLsbD 2 = true ∧ ¬ (3#8).getLsbD 2 = true) := by decide

/-- IretPopsNineBytes, HltHalts, and the frames SameRegsBut: a register outside the list. -/
theorem witness_frame : (0 : RegIndex) ≠ 7 ∧ (0 : RegIndex) ∉ [(7 : RegIndex)] := by decide

end Sys2Proof.Tests
end

section
/-! The checked accesses to memory (20 R44, R45): an equation for each side of the range check, the frame of a written
cell, and the two statements of the family assembled from them. -/

namespace Sys2Proof.Machine

/-! ### MemRead and MemWrite on each side of the range check -/

theorem memRead_of_gt {a : Nat} (h : 255 < a) (s : State) : memRead a s = .error (.outOfBounds (.mem a)) :=
  if_pos h

theorem memRead_of_le {a : Nat} (h : a ≤ 255) (s : State) : memRead a s = .ok (s.byteAt a) :=
  if_neg (Nat.not_lt.mpr h)

theorem memWrite_of_gt {a : Nat} (h : 255 < a) (v : Byte) (s : State) :
    memWrite a v s = .error (.outOfBounds (.mem a)) :=
  if_pos h

theorem memWrite_of_le {a : Nat} (h : a ≤ 255) (v : Byte) (s : State) : memWrite a v s = .ok (s.setByte a v) :=
  if_neg (Nat.not_lt.mpr h)

/-! ### The frame of a written cell -/

/-- 20 R45, "no other cell changes". -/
theorem State.setByte_sameMemoryBut (s : State) (a : Nat) (v : Byte) : SameMemoryBut a s (s.setByte a v) := by
  intro k hk
  rw [State.setByte_byteAt, if_neg hk.symm]

theorem State.setByte_sameRest (s : State) (a : Nat) (v : Byte) : SameRest s (s.setByte a v) :=
  ⟨State.setByte_fl s a v, State.setByte_out s a v, State.setByte_run s a v⟩

/-! ### The statements -/

/-- Settles O7: each side of the range check is one equation of `memRead`. -/
theorem memReadIsChecked : Obligations.MemReadIsChecked :=
  fun _ s => ⟨fun h => memRead_of_gt h s, fun h => memRead_of_le h s⟩

/-- Settles O8: in range, the state answered is `setByte`'s, which the read-after-write law and the frame describe. -/
theorem memWriteIsCheckedAndLocal : Obligations.MemWriteIsCheckedAndLocal := by
  intro a v s
  constructor
  · intro h
    exact memWrite_of_gt h v s
  · intro h
    exact ⟨s.setByte a v, memWrite_of_le h v s, State.setByte_byteAt_self s a v, State.setByte_sameMemoryBut s a v,
      State.setByte_x s a v, State.setByte_pc s a v, State.setByte_sameRest s a v⟩

end Sys2Proof.Machine
end

section
/-! The operand count and the two tables of the decoder (30 R62, R63): what `decodeWord` answers on each side of bit 5,
the word an instruction decodes from, and the sequential advance by that word's count (40 R87). -/

namespace Sys2Proof

/-! ### The count code -/

/-- The count code is the word's quotient by 64. -/
theorem extractLsb'_topBits_toNat (ir : Byte) : (ir.extractLsb' 6 2).toNat = ir.toNat / 64 := by
  have hq : ir.toNat / 64 < 4 := Nat.div_lt_of_lt_mul ir.isLt
  simpa [Nat.shiftRight_eq_div_pow] using hq

/-- 30 R62: the count is the code itself, but for the code 3, which counts as 2. -/
theorem operandCount_eq_min : ∀ nn : BitVec 2, operandCount nn = min nn.toNat 2 := by
  decide

theorem operandCount_topBits (ir : Byte) : operandCount (ir.extractLsb' 6 2) = min (ir.toNat / 64) 2 := by
  rw [operandCount_eq_min, extractLsb'_topBits_toNat]

@[simp] theorem operandCount_aluWord (code : BitVec 4) (v : AluBits) :
    operandCount ((aluWord code v).extractLsb' 6 2) = operandCount v.nn := by
  obtain ⟨-, -, hnn, -⟩ := aluWord_fields code v
  rw [hnn]

/-- 30 R62: the count code 3 stands in no direct word. -/
theorem directTable_topBits : ∀ ir : Byte, directTable ir ≠ none → ir.toNat / 64 ≠ 3 := by
  decide

/-! ### The decoder on each side of bit 5, with and without an entry -/

theorem decodeWord_of_aluTable {ir : Byte} {o : AluOp} (h5 : ir.getLsbD 5 = true)
    (ho : aluTable (ir.extractLsb' 0 4) = some o) :
    decodeWord ir = .ok ⟨operandCount (ir.extractLsb' 6 2), true, .alu o⟩ := by
  simp only [decodeWord, h5, if_true, ho]

theorem decodeWord_of_aluTable_none {ir : Byte} (h5 : ir.getLsbD 5 = true)
    (ho : aluTable (ir.extractLsb' 0 4) = none) : decodeWord ir = .error (.alu ir) := by
  simp only [decodeWord, h5, if_true, ho]

theorem decodeWord_of_directTable {ir : Byte} {o : DirectOp} (h5 : ir.getLsbD 5 = false)
    (ho : directTable ir = some o) :
    decodeWord ir = .ok ⟨operandCount (ir.extractLsb' 6 2), false, .direct o⟩ := by
  simp only [decodeWord, h5, Bool.false_eq_true, if_false, ho]

theorem decodeWord_of_directTable_none {ir : Byte} (h5 : ir.getLsbD 5 = false) (ho : directTable ir = none) :
    decodeWord ir = .error (.direct ir) := by
  simp only [decodeWord, h5, Bool.false_eq_true, if_false, ho]

/-- What a word decodes to: the entry of the table its bit 5 selects, with its count. -/
theorem decodeWord_ok_cases {ir : Byte} {d : Decoded} (h : decodeWord ir = .ok d) :
    (∃ o, d = ⟨operandCount (ir.extractLsb' 6 2), true, .alu o⟩) ∨
    (∃ o, directTable ir = some o ∧ d = ⟨operandCount (ir.extractLsb' 6 2), false, .direct o⟩) := by
  cases h5 : ir.getLsbD 5 with
  | true =>
    cases ho : aluTable (ir.extractLsb' 0 4) with
    | none => cases (decodeWord_of_aluTable_none h5 ho).symm.trans h
    | some o => exact .inl ⟨o, Except.ok.inj (h.symm.trans (decodeWord_of_aluTable h5 ho))⟩
  | false =>
    cases ho : directTable ir with
    | none => cases (decodeWord_of_directTable_none h5 ho).symm.trans h
    | some o => exact .inr ⟨o, rfl, Except.ok.inj (h.symm.trans (decodeWord_of_directTable h5 ho))⟩

/-- The decoder's `operand_count` output (30 R62). -/
theorem decodeWord_n {ir : Byte} {d : Decoded} (h : decodeWord ir = .ok d) :
    d.n = operandCount (ir.extractLsb' 6 2) := by
  obtain ⟨o, rfl⟩ | ⟨o, -, rfl⟩ := decodeWord_ok_cases h <;> rfl

/-- 30 R62: a word with the count code 3 that decodes is ALU-routed. -/
theorem decodeWord_isAlu_of_topBits {ir : Byte} {d : Decoded} (h : decodeWord ir = .ok d) (h3 : ir.toNat / 64 = 3) :
    d.isAlu = true := by
  obtain ⟨o, rfl⟩ | ⟨o, ho, rfl⟩ := decodeWord_ok_cases h
  · rfl
  · exact absurd h3 (directTable_topBits ir (by simp [ho]))

/-! ### The word an instruction decodes from -/

theorem encodeWord_aluInstr {code : BitVec 4} {o : AluOp} (h : aluTable code = some o) (v : AluBits)
    (opa opb : Candidate) : encodeWord (aluInstr o v opa opb) = aluWord code v := by
  unfold aluTable at h
  split at h <;> cases h <;> rfl

theorem encodeWord_directInstr {ir : Byte} {o : DirectOp} (h : directTable ir = some o) (opa opb : Candidate) :
    encodeWord (directInstr o opa opb) = ir := by
  unfold directTable at h
  split at h <;> cases h <;> rfl

/-- The word of a decoded instruction is the one it was decoded from, its unmatched bits among it. -/
theorem encodeWord_of_decode {ir : Byte} {opa opb : Candidate} {i : Instr} (h : decode ir opa opb = .ok i) :
    encodeWord i = ir := by
  obtain ⟨h5, o, ho, rfl⟩ | ⟨-, o, ho, rfl⟩ := decode_ok_cases h
  · rw [encodeWord_aluInstr ho, aluWord_of_bit5 ir h5]
  · exact encodeWord_directInstr ho opa opb

theorem wordCount_of_decode {ir : Byte} {opa opb : Candidate} {i : Instr} (h : decode ir opa opb = .ok i) :
    wordCount i = operandCount (ir.extractLsb' 6 2) := by
  rw [wordCount, encodeWord_of_decode h]

end Sys2Proof

namespace Sys2Proof.Machine

/-! ### The sequential advance -/

/-! A conditional jump ends with the sequential advance exactly when it does not fire. -/

theorem advancesSequentially_jeq (c : Candidate) (s : State) :
    AdvancesSequentially (.jeq c) s ↔ jeqFires s.fl = false := by
  simp [AdvancesSequentially, isAluRouted, jeqFires, flagE]

theorem advancesSequentially_jne (c : Candidate) (s : State) :
    AdvancesSequentially (.jne c) s ↔ jneFires s.fl = false := by
  simp [AdvancesSequentially, isAluRouted, jneFires, flagE]

theorem advancesSequentially_jge (c : Candidate) (s : State) :
    AdvancesSequentially (.jge c) s ↔ jgeFires s.fl = false := by
  simp [AdvancesSequentially, isAluRouted, jgeFires, flagE, flagG]

theorem advancesSequentially_jle (c : Candidate) (s : State) :
    AdvancesSequentially (.jle c) s ↔ jleFires s.fl = false := by
  simp [AdvancesSequentially, isAluRouted, jleFires, flagE, flagL]

theorem advancesSequentially_jlt (c : Candidate) (s : State) :
    AdvancesSequentially (.jlt c) s ↔ jltFires s.fl = false := by
  simp [AdvancesSequentially, isAluRouted, jltFires, flagL]

/-- 40 R87: an instruction that completes and ends with the sequential advance leaves `pc` behind its word and as many
bytes as the word counts. -/
theorem Completes.pc_of_advancesSequentially {i : Instr} {s t : State} (hc : Completes s i t)
    (ha : AdvancesSequentially i s) : t.pc = s.pc + wordCount i + 1 := by
  cases hc
  case hlt | ret | iret | jmp | call => simp [AdvancesSequentially, isAluRouted] at ha
  case jeq a => simp [(advancesSequentially_jeq _ s).mp ha, wordCount, encodeWord, operandCount]
  case jne a => simp [(advancesSequentially_jne _ s).mp ha, wordCount, encodeWord, operandCount]
  case jge a => simp [(advancesSequentially_jge _ s).mp ha, wordCount, encodeWord, operandCount]
  case jle a => simp [(advancesSequentially_jle _ s).mp ha, wordCount, encodeWord, operandCount]
  case jlt a => simp [(advancesSequentially_jlt _ s).mp ha, wordCount, encodeWord, operandCount]
  case nop | prn | pra | push | pop | ldi | ld => simp [State.push_eq, wordCount, encodeWord, operandCount]
  case add | sub | mul | div | mod | inc | dec | cmp | and | not | or | xor | shl | shr | st =>
    simp [wordCount, encodeWord]

/-- The same of every next state that is not a fault's. -/
theorem exec_pc_of_advancesSequentially {i : Instr} {s t : State} (h : exec i s = .next t)
    (ha : AdvancesSequentially i s) : (∃ r, t.run = .faulted r) ∨ t.pc = s.pc + wordCount i + 1 := by
  obtain hc | ⟨r, rfl, -⟩ := exec_next_cases h
  · exact .inr (hc.pc_of_advancesSequentially ha)
  · exact .inl ⟨r, rfl⟩

/-! ### The statements -/

/-- Settles O10: the count is the minimum of the top bits and 2, the decoder's entries carry it, and the word of the
decoded instruction, by which it advances, is the word it was decoded from. -/
theorem operandCountFromTopBits : Obligations.OperandCountFromTopBits := by
  intro ir
  have hn := operandCount_topBits ir
  refine ⟨fun h0 => ?_, fun h1 => ?_, fun h2 => ?_, fun h3 => ⟨?_, fun d hd => decodeWord_isAlu_of_topBits hd h3⟩,
    fun d hd => decodeWord_n hd, fun opa opb i s t hi ha _ ht => ?_⟩
  · rw [hn, h0]; rfl
  · rw [hn, h1]; rfl
  · rw [hn, h2]; rfl
  · rw [hn, h3]; rfl
  · rw [← wordCount_of_decode hi]
    exact exec_pc_of_advancesSequentially ht ha

/-- Settles O11: one equation of `decodeWord` for each clause. -/
theorem decoderFollowsTheTwoTables : Obligations.DecoderFollowsTheTwoTables :=
  fun _ => ⟨fun h5 => ⟨fun _ ho => decodeWord_of_aluTable h5 ho, fun ho => decodeWord_of_aluTable_none h5 ho⟩,
    fun h5 => ⟨fun _ ho => decodeWord_of_directTable h5 ho, fun ho => decodeWord_of_directTable_none h5 ho⟩⟩

end Sys2Proof.Machine
end

section
/-! The execution loop (40 R82 to R87): what the step does at a word that is rejected, the candidate operand bytes by the
range check that admits them, and the two statements of the family. -/

namespace Sys2Proof.Machine

/-- A candidate byte, with the address in range first (40 R83). -/
theorem candidate_eq (k : Nat) (s : State) :
    candidate k s = if s.pc + k ≤ 255 then some (s.byteAt (s.pc + k)) else none := by
  simp only [candidate, gt_iff_lt, ← Nat.not_le, ite_not]

theorem fetchDecode_of_reject {s : State} {e : DecodeReject} (hp : s.pc ≤ 255)
    (hd : decodeWord (s.byteAt s.pc) = .error e) : fetchDecode s = .error (.decodeError e) := by
  simp only [fetchDecode, memRead_of_le hp, decode_error_iff.mpr hd]

/-- The step at a word that the decoder rejects (40 R86). -/
theorem step_of_reject {s : State} {e : DecodeReject} (hr : s.run = .running) (hp : s.pc ≤ 255)
    (hd : decodeWord (s.byteAt s.pc) = .error e) : step s = raise (.decodeError e) s := by
  simp only [step, hr, fetchDecode_of_reject hp hd]

/-! ### The statements -/

/-- Settles O31: it is the rule for every next state of `exec`, Running or not before it. -/
theorem sequentialAdvanceByOperandCount : Obligations.SequentialAdvanceByOperandCount :=
  fun _ _ _ _ h ha => exec_pc_of_advancesSequentially h ha

/-- Settles O18: the step at a rejected word and the step at one that decodes with its two candidates. -/
theorem stepRunsTheDecodedInstruction : Obligations.StepRunsTheDecodedInstruction := by
  intro s hr hp
  constructor
  · intro e hd
    exact ⟨_, step_of_reject hr hp hd, rfl⟩
  · intro i hd
    rw [← candidate_eq, ← candidate_eq] at hd
    exact step_of_decode hr hp hd

end Sys2Proof.Machine
end

section
/-! The ALU operations that write a register and never divide (41 R101 to R103, R106, R107, R109 to R112): how a
register operand stops an instruction, the frame of a written register, and one rule for each of the two formats, by which
a statement is left with the arithmetic of its operation. -/

namespace Sys2Proof.Machine

/-! ### Register operands that stop an instruction -/

theorem stopsOnAddress_of_operandFault {i : Instr} {s : State} {k : Nat}
    (h : OperandFault i s (.outOfBounds (.mem k))) : StopsOnAddress i s :=
  ⟨_, k, exec_of_fault (.inl h), rfl⟩

theorem stopsOnIndex_of_operandFault {i : Instr} {s : State} {v : Byte}
    (h : OperandFault i s (.outOfBounds (.reg v))) : StopsOnIndex i s :=
  ⟨_, v, exec_of_fault (.inl h), rfl⟩

theorem stopsOnAddress_of_first_missing {i : Instr} {rest : List Candidate} (ho : operands i = none :: rest)
    (s : State) : StopsOnAddress i s :=
  stopsOnAddress_of_operandFault (.inl ⟨none, rest, ho, .inl ⟨rfl, rfl⟩⟩)

theorem stopsOnIndex_of_first_above {i : Instr} {v : Byte} {rest : List Candidate} (ho : operands i = some v :: rest)
    (hv : 7 < v.toNat) (s : State) : StopsOnIndex i s :=
  stopsOnIndex_of_operandFault (.inl ⟨some v, rest, ho, .inr ⟨v, rfl, hv, rfl⟩⟩)

/-- LDI, whose second operand is an immediate (30 R65) and not an index to check, is no ALU operation. -/
theorem ne_ldi_of_isAluRouted {i : Instr} (hi : isAluRouted i = true) (x y : Candidate) : i ≠ .ldi x y := by
  rintro rfl
  cases hi

theorem stopsOnAddress_of_second_missing {i : Instr} {a : RegIndex} (ho : operands i = [regOp a, none])
    (hi : isAluRouted i = true) (s : State) : StopsOnAddress i s :=
  stopsOnAddress_of_operandFault
    (.inr ⟨a, none, ho, .inl ⟨rfl, rfl⟩, fun x y h => absurd h (ne_ldi_of_isAluRouted hi x y)⟩)

theorem stopsOnIndex_of_second_above {i : Instr} {a : RegIndex} {w : Byte} (ho : operands i = [regOp a, some w])
    (hi : isAluRouted i = true) (hw : 7 < w.toNat) (s : State) : StopsOnIndex i s :=
  stopsOnIndex_of_operandFault
    (.inr ⟨a, some w, ho, .inr ⟨w, rfl, hw, rfl⟩, fun x y h => absurd h (ne_ldi_of_isAluRouted hi x y)⟩)

/-- The exceptions of the format with one register operand. -/
theorem stopsOnOne_of_operands {mk : Candidate → Instr} (ho : ∀ opa, operands (mk opa) = [opa]) : StopsOnOne mk :=
  fun s => ⟨stopsOnAddress_of_first_missing (ho none) s, fun v hv => stopsOnIndex_of_first_above (ho (some v)) hv s⟩

/-- The exceptions of the format with two register operands. -/
theorem stopsOnTwo_of_operands {mk : Candidate → Candidate → Instr} (ho : ∀ opa opb, operands (mk opa opb) = [opa, opb])
    (hi : ∀ opa opb, isAluRouted (mk opa opb) = true) : StopsOnTwo mk := by
  intro s
  refine ⟨fun opb => stopsOnAddress_of_first_missing (ho none opb) s, fun v hv => ?_,
    fun v hv => .inr (stopsOnIndex_of_first_above (ho (some v) none) hv s), fun v w hvw => ?_⟩
  · obtain ⟨a, rfl, -⟩ := exists_regByte (Nat.lt_succ_of_le hv)
    exact stopsOnAddress_of_second_missing (ho (regOp a) none) (hi _ _) s
  · by_cases hv : 7 < v.toNat
    · exact stopsOnIndex_of_first_above (ho (some v) (some w)) hv s
    · obtain ⟨a, rfl, -⟩ := exists_regByte (Nat.lt_succ_of_le (Nat.le_of_not_lt hv))
      exact stopsOnIndex_of_second_above (ho (regOp a) (some w)) (hi _ _) (hvw.resolve_left hv) s

/-! ### The frame of a written register -/

theorem State.setReg_sameRegsBut (s : State) (a : RegIndex) (x : Byte) : SameRegsBut [a] s (s.setReg a x) := by
  intro i hi
  rw [State.setReg_reg, if_neg (Ne.symm (List.ne_of_not_mem_cons hi))]

/-- An instruction whose rule is a register write and the sequential advance changes that register and `pc` only. -/
theorem writesReg_of_completes {i : Instr} {s : State} {a : RegIndex} {x : Byte} {n : Nat}
    (hc : Completes s i ((s.setReg a x).advance n)) : WritesReg i a x.toNat n s := by
  refine ⟨_, exec_of_completes hc, ?_, rfl, State.setReg_sameRegsBut s a x, fun _ => rfl, rfl, rfl, rfl⟩
  rw [State.advance_reg, State.setReg_reg_self]

/-! ### One rule for each format -/

/-- A two-register operation does f when the byte operation g its rule applies has the value of f (41 R100). -/
theorem binaryOp_of_completes {mk : AluBits → Candidate → Candidate → Instr} {f : Nat → Nat → Nat}
    (g : Byte → Byte → Byte) (ho : ∀ v opa opb, operands (mk v opa opb) = [opa, opb])
    (hi : ∀ v opa opb, isAluRouted (mk v opa opb) = true)
    (hc : ∀ v a b (s : State), Completes s (mk v (regOp a) (regOp b))
      ((s.setReg a (g (s.reg a) (s.reg b))).advance (operandCount v.nn)))
    (hg : ∀ p q : Byte, (g p q).toNat = f p.toNat q.toNat) : BinaryOp mk f := by
  intro v
  refine ⟨fun a b s => ?_, stopsOnTwo_of_operands (ho v) (hi v)⟩
  rw [← hg]
  exact writesReg_of_completes (hc v a b s)

/-- A one-register operation, likewise. -/
theorem unaryOp_of_completes {mk : AluBits → Candidate → Instr} {f : Nat → Nat} (g : Byte → Byte)
    (ho : ∀ v opa, operands (mk v opa) = [opa])
    (hc : ∀ v a (s : State), Completes s (mk v (regOp a)) ((s.setReg a (g (s.reg a))).advance (operandCount v.nn)))
    (hg : ∀ p : Byte, (g p).toNat = f p.toNat) : UnaryOp mk f := by
  intro v
  refine ⟨fun a s => ?_, stopsOnOne_of_operands (ho v)⟩
  rw [← hg]
  exact writesReg_of_completes (hc v a s)

/-! ### Subtraction of bytes -/

/-- 41 R102 on natural numbers: 256 is added first, so that their subtraction does not stop at 0. -/
theorem toNat_sub_byte (p q : Byte) : (p - q).toNat = (p.toNat + 256 - q.toNat) % 256 := by
  have hq : q.toNat < 256 := q.isLt
  rw [BitVec.toNat_sub]
  omega

/-! ### The statements -/

/-- Settles O32: the sum of two bytes is the sum of their values modulo 256. -/
theorem addWrapsModulo256 : Obligations.AddWrapsModulo256 :=
  binaryOp_of_completes (· + ·) (fun _ _ _ => rfl) (fun _ _ _ => rfl) (fun v a b _ => .add v a b) BitVec.toNat_add

/-- Settles O33: the difference of two bytes is that of their values modulo 256. -/
theorem subWrapsModulo256 : Obligations.SubWrapsModulo256 :=
  binaryOp_of_completes (· - ·) (fun _ _ _ => rfl) (fun _ _ _ => rfl) (fun v a b _ => .sub v a b) toNat_sub_byte

/-- Settles O34: the product of two bytes is the product of their values modulo 256. -/
theorem mulKeepsTheLowByte : Obligations.MulKeepsTheLowByte :=
  binaryOp_of_completes (· * ·) (fun _ _ _ => rfl) (fun _ _ _ => rfl) (fun v a b _ => .mul v a b) BitVec.toNat_mul

/-- Settles O38: INC is the sum with 1, DEC the difference from 1, which is the sum with 255. -/
theorem incAndDecStepByOne : Obligations.IncAndDecStepByOne :=
  ⟨unaryOp_of_completes (· + 1) (fun _ _ => rfl) (fun v a _ => .inc v a) fun p => BitVec.toNat_add p 1,
    unaryOp_of_completes (· - 1) (fun _ _ => rfl) (fun v a _ => .dec v a) fun p => toNat_sub_byte p 1⟩

/-- Settles O40: the bitwise operations on bytes are those on their values. -/
theorem logicIsBitwiseOnTwoRegisters : Obligations.LogicIsBitwiseOnTwoRegisters :=
  ⟨binaryOp_of_completes (· &&& ·) (fun _ _ _ => rfl) (fun _ _ _ => rfl) (fun v a b _ => .and v a b) BitVec.toNat_and,
    binaryOp_of_completes (· ||| ·) (fun _ _ _ => rfl) (fun _ _ _ => rfl) (fun v a b _ => .or v a b) BitVec.toNat_or,
    binaryOp_of_completes (· ^^^ ·) (fun _ _ _ => rfl) (fun _ _ _ => rfl) (fun v a b _ => .xor v a b) BitVec.toNat_xor⟩

/-- Settles O41: the complement of a byte is 255 less its value. -/
theorem notComplementsEveryBit : Obligations.NotComplementsEveryBit :=
  unaryOp_of_completes (~~~ ·) (fun _ _ => rfl) (fun v a _ => .not v a) fun _ => BitVec.toNat_not

end Sys2Proof.Machine
end

section
/-! LDI (42 R121).  What a first byte that is missing or no register does, and the frame of the written register, are the
rules above; what LDI adds is its second operand, of which only the presence is checked. -/

namespace Sys2Proof.Machine

/-- 30 R65: the immediate's byte is consumed like any other, so that a missing one stops LDI once its register is good. -/
theorem ldi_stopsOnAddress_of_immediate_missing (a : RegIndex) (s : State) : StopsOnAddress (.ldi (regOp a) none) s :=
  stopsOnAddress_of_operandFault (.inr ⟨a, none, rfl, .inl ⟨rfl, rfl⟩, fun _ _ h => (Instr.ldi.inj h).2.symm⟩)

/-- Settles O45: LDI's completion writes the immediate, and its faults are those of its two operand bytes in their order. -/
theorem ldiLoadsTheImmediate : Obligations.LdiLoadsTheImmediate := by
  refine ⟨fun a v s => writesReg_of_completes (.ldi a v), fun s => ⟨fun _ => ?noRegister, fun v hv => ?noImmediate,
    fun v hv => .inr ?badRegisterNoImmediate, fun v w hv => ?badRegister⟩⟩
  case noRegister => exact stopsOnAddress_of_first_missing rfl s
  case noImmediate =>
    obtain ⟨a, rfl, -⟩ := exists_regByte (Nat.lt_succ_of_le hv)
    exact ldi_stopsOnAddress_of_immediate_missing a s
  case badRegisterNoImmediate | badRegister => exact stopsOnIndex_of_first_above rfl hv s

end Sys2Proof.Machine
end

section
/-! JMP (43 R132).  Its completion is one jump, so what the jump leaves unchanged is the frame of the instruction, and a jump
to `pc` itself is no change at all; the faults are those of the format with one register operand. -/

namespace Sys2Proof.Machine

/-! ### The frame of a jump -/

theorem State.jump_sameRegs (s : State) (v : Byte) : SameRegsBut [] s (s.jump v) :=
  fun i _ => State.jump_reg s v i

theorem State.jump_sameMemory (s : State) (v : Byte) : SameMemory s (s.jump v) :=
  State.jump_byteAt s v

theorem State.jump_sameRest (s : State) (v : Byte) : SameRest s (s.jump v) :=
  ⟨State.jump_fl s v, State.jump_out s v, State.jump_run s v⟩

theorem State.jump_eq_self {s : State} {v : Byte} (h : v.toNat = s.pc) : s.jump v = s := by
  rw [State.jump, h]

/-! ### JMP -/

theorem exec_jmp (r : RegIndex) (s : State) : exec (.jmp (regOp r)) s = .next (s.jump (s.reg r)) :=
  exec_of_completes (.jmp r)

/-- Settles O55: JMP is the jump to its register's value, which is the state itself where that value is `pc`. -/
theorem jmpGoesToTheRegister : Obligations.JmpGoesToTheRegister := by
  refine ⟨fun r s => ?completes, fun r s h => ?selfLoop, ?faults⟩
  case completes =>
    exact ⟨_, exec_jmp r s, State.jump_pc s _, State.jump_sameRegs s _, State.jump_sameMemory s _,
      State.jump_sameRest s _⟩
  case selfLoop => rw [exec_jmp, State.jump_eq_self h]
  case faults => exact stopsOnOne_of_operands fun _ => rfl

end Sys2Proof.Machine
end

section
/-! Who raises a fault record (60 R151 to R153).  Completing never leaves Faulted, so a fault that an instruction leaves is
one of its operands, always OutOfBounds, or its own, never DecodeError; the step's other faults are those of the fetch and of
the decoding. -/

namespace Sys2Proof

/-! ### The words that are rejected -/

/-- The name of a rejection is the table that bit 5 selects (30 R63, 60 R152). -/
theorem decodeWord_error_info {ir : Byte} {e : DecodeReject} (h : decodeWord ir = .error e) :
    e = if ir.getLsbD 5 = true then .alu ir else .direct ir := by
  cases h5 : ir.getLsbD 5 with
  | true =>
    cases ho : aluTable (ir.extractLsb' 0 4) with
    | none => exact Except.error.inj (h.symm.trans (decodeWord_of_aluTable_none h5 ho))
    | some o => cases h.symm.trans (decodeWord_of_aluTable h5 ho)
  | false =>
    cases ho : directTable ir with
    | none => exact Except.error.inj (h.symm.trans (decodeWord_of_directTable_none h5 ho))
    | some o => cases h.symm.trans (decodeWord_of_directTable h5 ho)

/-- Whether the decoder rejects a word. -/
def isRejected (ir : Byte) : Bool :=
  match decodeWord ir with
  | .ok _ => false
  | .error _ => true

/-- The rejected words among the 32 whose top three bits are `k`: bit 5, the last of the three, is the same for all. -/
def rejectedInBlock (k : Nat) : Nat :=
  (List.range' (32 * k) 32).countP fun n => isRejected (BitVec.ofNat 8 n)

/-- 30 R70: 2 in each of the four ALU blocks, whose sub-code 15 has no entry, and of the direct ones all but the 4, 11, 2
and 0 entries there. -/
theorem rejectedInBlock_eq : (List.range 8).map rejectedInBlock = [32 - 4, 2, 32 - 11, 2, 32 - 2, 2, 32 - 0, 2] := by
  decide

/-- The numbers below `w * m` are `m` blocks of `w`, so that a count over all words is a sum over blocks. -/
theorem range_mul_eq_flatMap (w m : Nat) :
    List.range (w * m) = (List.range m).flatMap fun k => List.range' (w * k) w := by
  induction m with
  | zero => rfl
  | succ m ih =>
    rw [Nat.mul_succ, List.range_add, List.range_succ, List.flatMap_append, ← ih, List.flatMap_singleton,
      List.range'_eq_map_range]

/-- 30 R70: 119 of the 256 words are rejected. -/
theorem countP_isRejected : ((List.range 256).countP fun n => isRejected (BitVec.ofNat 8 n)) = 119 := by
  rw [range_mul_eq_flatMap 32 8, List.countP_flatMap]
  exact congrArg List.sum rejectedInBlock_eq

end Sys2Proof

namespace Sys2Proof.Machine

/-! ### The faults of an instruction -/

/-- 43 R140: completing leaves `run` alone, but for HLT. -/
theorem Completes.run_cases {s t : State} {i : Instr} (h : Completes s i t) : t.run = s.run ∨ t.run = .halted := by
  cases h
  case hlt => exact .inr rfl
  case iret => exact .inl (State.popContext_run s)
  case jeq | jne | jge | jle | jlt => exact .inl (by simp [apply_ite State.run])
  all_goals exact .inl rfl

/-- A fault that an instruction leaves is one of its operands or its own, and nothing else changes (60 R150). -/
theorem exec_faulted_cases {i : Instr} {s t : State} {r : FaultRecord} (hs : s.run = .running)
    (h : exec i s = .next t) (ht : t.run = .faulted r) :
    t = { s with run := .faulted r } ∧ (OperandFault i s r ∨ OwnFault s i r) := by
  obtain hc | ⟨r', rfl, hf⟩ := exec_next_cases h
  · obtain hrun | hrun := hc.run_cases <;> simp [hrun, hs] at ht
  · cases ht
    exact ⟨rfl, hf⟩

theorem RegOperandFault.eq_outOfBounds {k : Nat} {c : Candidate} {s : State} {r : FaultRecord}
    (h : RegOperandFault k c s r) : ∃ o, r = .outOfBounds o := by
  obtain ⟨-, rfl⟩ | ⟨v, -, -, rfl⟩ := h
  · exact ⟨_, rfl⟩
  · exact ⟨_, rfl⟩

/-- 40 R84, R85: an operand raises OutOfBounds and nothing else. -/
theorem OperandFault.eq_outOfBounds {i : Instr} {s : State} {r : FaultRecord} (h : OperandFault i s r) :
    ∃ o, r = .outOfBounds o := by
  obtain ⟨_, _, -, hr⟩ | ⟨_, _, -, hr, -⟩ := h
  · exact hr.eq_outOfBounds
  · exact hr.eq_outOfBounds

/-- 60 R152: no instruction that executes raises DecodeError. -/
theorem exec_run_ne_decodeError {i : Instr} {s t : State} (hs : s.run = .running) (h : exec i s = .next t)
    (e : DecodeReject) : t.run ≠ .faulted (.decodeError e) := by
  intro ht
  obtain ⟨-, hf | hf⟩ := exec_faulted_cases hs h ht
  · obtain ⟨o, ho⟩ := hf.eq_outOfBounds
    cases ho
  · cases hf

/-- 60 R153: DIV and MOD with a zero divisor are all that raise DivideByZero. -/
theorem exec_divideByZero_cases {i : Instr} {s t : State} {o : DivOp} (hs : s.run = .running)
    (h : exec i s = .next t) (ht : t.run = .faulted (.divideByZero o)) :
    ∃ v a b, s.reg b = 0 ∧ ((o = .div ∧ i = .div v (regOp a) (regOp b)) ∨
      (o = .mod ∧ i = .mod v (regOp a) (regOp b))) := by
  obtain ⟨-, hf | hf⟩ := exec_faulted_cases hs h ht
  · obtain ⟨o, ho⟩ := hf.eq_outOfBounds
    cases ho
  · cases hf with
    | div v a b hb => exact ⟨v, a, b, hb, .inl ⟨rfl, rfl⟩⟩
    | mod v a b hb => exact ⟨v, a, b, hb, .inr ⟨rfl, rfl⟩⟩

/-! ### The fault of the decoding -/

/-- A step that ends in DecodeError is one that fetched a word the decoder rejects (40 R86). -/
theorem decodeWord_of_step_decodeError {s t : State} {e : DecodeReject} (h : step s = .next t)
    (ht : t.run = .faulted (.decodeError e)) : s.pc ≤ 255 ∧ decodeWord (s.byteAt s.pc) = .error e := by
  obtain ⟨-, rfl⟩ | ⟨hp, e', he, rfl⟩ | ⟨-, i, -, hx⟩ := step_cases h
  · cases ht
  · cases ht
    exact ⟨hp, he⟩
  · exact absurd ht (exec_run_ne_decodeError (running_of_step h) hx e)

/-! ### The statements -/

/-- Settles O21: the step's inversion one way, the step at a rejected word the other; the 119 words are counted. -/
theorem decodeErrorExactlyOnRejectedWords : Obligations.DecodeErrorExactlyOnRejectedWords := by
  refine ⟨fun s hs e => ⟨?onlyIf, ?ifRejected⟩, fun _ _ h => decodeWord_error_info h, ?count⟩
  case onlyIf =>
    rintro ⟨t, h, ht⟩
    exact decodeWord_of_step_decodeError h ht
  case ifRejected =>
    rintro ⟨hp, hd⟩
    exact ⟨_, step_of_reject hs hp hd, rfl⟩
  case count => exact countP_isRejected

/-- Settles O37: the zero divisor is the fault of DIV and of MOD of their own, and of no other instruction. -/
theorem divideByZeroOnlyByDivAndMod : Obligations.DivideByZeroOnlyByDivAndMod := by
  refine ⟨fun v a b s hb => ⟨exec_of_fault (.inr (.div v a b hb)), exec_of_fault (.inr (.mod v a b hb))⟩,
    fun i s t o hs h ht => ⟨?_, exec_divideByZero_cases hs h ht⟩⟩
  rw [ht]
  exact (exec_faulted_cases hs h ht).1

end Sys2Proof.Machine
end

section
/-! The launch (10 R26, 70 R171, R172): what an accepted load does, the induction over the loads of a launch, the frame it
gives, and the statement of the family. -/

namespace Sys2Proof.Machine

/-! ### One load -/

/-- A load that the port accepts lies within memory and writes its bytes (10 R26). -/
theorem hostLoad_next_iff {bytes : List Byte} {a : Nat} {s t : State} :
    hostLoad bytes a s = .next t ↔ a + bytes.length ≤ 256 ∧ loadBytes bytes a s = t := by
  unfold hostLoad
  split
  case isTrue h => simp [Nat.not_le.mpr h]
  case isFalse h => simp [Nat.le_of_not_gt h]

/-- 10 R26: a load writes `mem` only. -/
theorem loadBytes_eq_self_but_mem (bytes : List Byte) (a : Nat) (s : State) :
    loadBytes bytes a s = { s with mem := (loadBytes bytes a s).mem } := by
  induction bytes generalizing a s with
  | nil => rfl
  | cons v vs ih => exact ih (a + 1) (s.setByte a v)

/-! ### The loads of a launch -/

/-- A sequence of loads is accepted exactly when its first load is and then the rest are. -/
theorem loadAll_cons_next_iff {bytes : List Byte} {a : Nat} {rest : List (List Byte × Nat)} {s t : State} :
    loadAll ((bytes, a) :: rest) s = .next t ↔ ∃ u, hostLoad bytes a s = .next u ∧ loadAll rest u = .next t := by
  cases h : hostLoad bytes a s <;> simp [loadAll, h]

/-- What holds at first and every accepted load keeps holds after all of them. -/
theorem loadAll_keeps {P : State → Prop}
    (hload : ∀ bytes a s, a + bytes.length ≤ 256 → P s → P (loadBytes bytes a s))
    {loads : List (List Byte × Nat)} {s t : State} (hs : P s) (h : loadAll loads s = .next t) : P t := by
  induction loads generalizing s with
  | nil =>
    cases h
    exact hs
  | cons load rest ih =>
    obtain ⟨u, hu, hrest⟩ := loadAll_cons_next_iff.mp h
    obtain ⟨hle, rfl⟩ := hostLoad_next_iff.mp hu
    exact ih (hload _ _ s hle hs) hrest

/-- 70 R172: the launch state is the reset state but for memory. -/
theorem launch_eq_reset_but_mem {loads : List (List Byte × Nat)} {s : State} (h : launch loads = .next s) :
    s = { State.reset with mem := s.mem } := by
  refine loadAll_keeps (P := fun s => s = { State.reset with mem := s.mem }) ?_ rfl h
  intro bytes a s _ hs
  have hl := loadBytes_eq_self_but_mem bytes a s
  rw [hs] at hl ⊢
  exact hl

theorem launch_run {loads : List (List Byte × Nat)} {s : State} (h : launch loads = .next s) : s.run = .running :=
  congrArg State.run (launch_eq_reset_but_mem h)

theorem launch_pc {loads : List (List Byte × Nat)} {s : State} (h : launch loads = .next s) : s.pc = 0 :=
  congrArg State.pc (launch_eq_reset_but_mem h)

/-! ### The statement -/

/-- Settles O4: the loads leave reset's `run` and `pc` alone, and the first step is the step of a Running state at 0,
where the addresses of both candidate bytes are in range. -/
theorem entryPointIsAddressZero : Obligations.EntryPointIsAddressZero := by
  intro loads s h
  have hrun := launch_run h
  have hpc := launch_pc h
  obtain ⟨hreject, hdecode⟩ := stepRunsTheDecodedInstruction s hrun (by omega)
  rw [hpc] at hreject hdecode
  exact ⟨hrun, hpc, hdecode, hreject⟩

end Sys2Proof.Machine
end

section
/-! The decoder and the encoder as inverses (30 sections 1 to 4): which words are rejected, what an instruction decodes
from, and the statements about encodings. -/

namespace Sys2Proof

/-! ### The words that have no entry -/

/-- The sub-code is the word's remainder by 16. -/
theorem extractLsb'_subCode_toNat (ir : Byte) : (ir.extractLsb' 0 4).toNat = ir.toNat % 16 := by
  simp

/-- 30 R70: the one sub-code that the ALU table leaves out. -/
theorem aluTable_eq_none_iff : ∀ code : BitVec 4, aluTable code = none ↔ code.toNat = 15 := by
  decide

/-- 30 R67: the bytes that the direct table lists. -/
theorem directTable_eq_none_iff : ∀ ir : Byte, directTable ir = none ↔ ir.toNat ∉
    [0x00, 0x01, 0x11, 0x13, 0x45, 0x46, 0x47, 0x48, 0x50, 0x54, 0x55, 0x56, 0x58, 0x59, 0x5A, 0x82, 0x83] := by
  decide

theorem decodeWord_eq_error_alu_iff (ir : Byte) :
    decodeWord ir = .error (.alu ir) ↔ ir.getLsbD 5 = true ∧ aluTable (ir.extractLsb' 0 4) = none := by
  constructor
  · intro h
    have h5 : ir.getLsbD 5 = true := by simpa using decodeWord_error_info h
    refine ⟨h5, Option.eq_none_iff_forall_ne_some.mpr fun o ho => ?_⟩
    cases h.symm.trans (decodeWord_of_aluTable h5 ho)
  · rintro ⟨h5, ho⟩
    exact decodeWord_of_aluTable_none h5 ho

theorem decodeWord_eq_error_direct_iff (ir : Byte) :
    decodeWord ir = .error (.direct ir) ↔ ir.getLsbD 5 = false ∧ directTable ir = none := by
  constructor
  · intro h
    have h5 : ir.getLsbD 5 = false := by simpa using decodeWord_error_info h
    refine ⟨h5, Option.eq_none_iff_forall_ne_some.mpr fun o ho => ?_⟩
    cases h.symm.trans (decodeWord_of_directTable h5 ho)
  · rintro ⟨h5, ho⟩
    exact decodeWord_of_directTable_none h5 ho

/-! ### The operands of a decoded instruction -/

/-- 40 R83: a decoded instruction's operands are the candidates in order, as many as its format consumes. -/
theorem operands_of_decode {ir : Byte} {opa opb : Candidate} {i : Instr} (h : decode ir opa opb = .ok i) :
    operands i = [opa, opb].take (operands i).length := by
  obtain ⟨-, o, -, rfl⟩ | ⟨-, o, -, rfl⟩ := decode_ok_cases h
  · cases o <;> rfl
  · cases o <;> rfl

/-- What an ALU-routed word decodes to, by the entry of its sub-code alone (30 R64). -/
theorem decode_aluWord_eq (code : BitVec 4) (v : AluBits) (opa opb : Candidate) :
    decode (aluWord code v) opa opb =
      (aluTable code).elim (.error (.alu (aluWord code v))) fun o => .ok (aluInstr o v opa opb) := by
  cases ho : aluTable code with
  | some o => exact decode_aluWord ho v opa opb
  | none =>
    obtain ⟨-, hcode, -, h5⟩ := aluWord_fields code v
    exact decode_error_iff.mpr (decodeWord_of_aluTable_none h5 (hcode.symm ▸ ho))

/-- The word of an instruction decodes to it with its own operands, whatever candidate its format does not consume. -/
theorem decode_encodeWord {i : Instr} {opa opb : Candidate} (h : operands i = [opa, opb].take (operands i).length) :
    decode (encodeWord i) opa opb = .ok i := by
  cases i
  case nop | hlt | ret | iret => rfl
  case push | pop | prn | pra | call | jmp | jeq | jne | jlt | jle | jge | ldi | ld =>
    cases h
    simp [encodeWord, decode, decodeWord, directTable, directInstr]
  case inc v _ | dec v _ | not v _ =>
    cases h
    exact decode_aluWord_eq _ v opa opb
  case add v _ _ | sub v _ _ | mul v _ _ | div v _ _ | mod v _ _ | cmp v _ _ | and v _ _ | or v _ _ | xor v _ _
      | shl v _ _ | shr v _ _ | st v _ _ =>
    cases h
    exact decode_aluWord_eq _ v opa opb

theorem exists_of_regOperandOk {c : Candidate} (h : regOperandOk c = true) : ∃ v, c = some v := by
  cases c with
  | none => cases h
  | some v => exact ⟨v, rfl⟩

theorem exists_of_immOperandOk {c : Candidate} (h : immOperandOk c = true) : ∃ v, c = some v := by
  cases c with
  | none => cases h
  | some v => exact ⟨v, rfl⟩

/-- 30 R66: a well-formed instruction has none, one or two operand bytes, all of them there. -/
theorem operands_of_wf {i : Instr} (h : i.wf = true) :
    operands i = [] ∨ (∃ v, operands i = [some v]) ∨ ∃ v w, operands i = [some v, some w] := by
  cases i
  case nop | hlt | ret | iret => exact .inl rfl
  case push | pop | prn | pra | call | jmp | jeq | jne | jlt | jle | jge | inc | dec | not =>
    obtain ⟨v, rfl⟩ := exists_of_regOperandOk h
    exact .inr (.inl ⟨v, rfl⟩)
  case ldi =>
    obtain ⟨ha, hb⟩ := Bool.and_eq_true_iff.mp h
    obtain ⟨v, rfl⟩ := exists_of_regOperandOk ha
    obtain ⟨w, rfl⟩ := exists_of_immOperandOk hb
    exact .inr (.inr ⟨v, w, rfl⟩)
  case ld | add | sub | mul | div | mod | cmp | and | or | xor | shl | shr | st =>
    obtain ⟨ha, hb⟩ := Bool.and_eq_true_iff.mp h
    obtain ⟨v, rfl⟩ := exists_of_regOperandOk ha
    obtain ⟨w, rfl⟩ := exists_of_regOperandOk hb
    exact .inr (.inr ⟨v, w, rfl⟩)

/-- A well-formed instruction decodes from its word with candidates that hold its operand bytes. -/
theorem decode_encodeWord_of_wf {i : Instr} {opa opb : Candidate} (hwf : i.wf = true)
    (ha : ∀ v, (encodeOperands i)[0]? = some v → opa = some v)
    (hb : ∀ v, (encodeOperands i)[1]? = some v → opb = some v) : decode (encodeWord i) opa opb = .ok i := by
  apply decode_encodeWord
  obtain ho | ⟨v, ho⟩ | ⟨v, w, ho⟩ := operands_of_wf hwf
  · simp [ho]
  · simp [ho, ha v (by simp [encodeOperands, ho])]
  · simp [ho, ha v (by simp [encodeOperands, ho]), hb w (by simp [encodeOperands, ho])]

/-! ### The statements -/

/-- Settles O14: the bytes after the word hold the operands, at their places in whatever list continues them. -/
theorem decodeEncodeRoundTrip : Obligations.DecodeEncodeRoundTrip := by
  intro i tail hwf
  have hbyte : ∀ (k : Nat) (v : Byte), (encodeOperands i)[k]? = some v → (encodeOperands i ++ tail)[k]? = some v :=
    fun k v h => by rw [List.getElem?_append_left (List.getElem?_eq_some_iff.mp h).1, h]
  exact decode_encodeWord_of_wf hwf (hbyte 0) (hbyte 1)

/-- Settles O15: the word and the operands of what a word decodes to, each by its lemma. -/
theorem encodeDecodeRoundTrip : Obligations.EncodeDecodeRoundTrip :=
  fun _ _ _ _ h => ⟨encodeWord_of_decode h, operands_of_decode h⟩

/-- Settles O16: the word and the candidates that the format consumes fix what is decoded. -/
theorem unconsumedBytesAreIgnored : Obligations.UnconsumedBytesAreIgnored := by
  intro ir opa opb i h
  have hops := operands_of_decode h
  rw [← encodeWord_of_decode h]
  refine ⟨fun hone opb' => decode_encodeWord ?_, fun hnone opa' opb' => decode_encodeWord ?_⟩
  · obtain h0 | h1 := Nat.le_one_iff_eq_zero_or_eq_one.mp hone
    · rw [h0] at hops ⊢
      exact hops
    · rw [h1] at hops ⊢
      exact hops
  · rw [hnone] at hops ⊢
    exact hops

/-- Settles O12: an entry of the direct table for each byte, an entry of the ALU table for each sub-code. -/
theorem someWordsDecodeAsTabulated : Obligations.SomeWordsDecodeAsTabulated := by
  intro opa opb
  have direct (o : DirectOp) {ir : Byte} (h : directTable ir = some o) :
      decode ir opa opb = .ok (directInstr o opa opb) := decode_direct h opa opb
  have alu (nn : BitVec 2) (b : Bool) (o : AluOp) {code : BitVec 4} (h : aluTable code = some o) :
      decode (nn ++ 0b1#1 ++ BitVec.ofBool b ++ code) opa opb = .ok (aluInstr o ⟨nn, b⟩ opa opb) :=
    decode_aluWord h ⟨nn, b⟩ opa opb
  exact ⟨⟨direct .nop rfl, direct .hlt rfl, direct .ret rfl, direct .iret rfl, direct .push rfl, direct .pop rfl,
      direct .prn rfl, direct .pra rfl, direct .call rfl, direct .jmp rfl, direct .jeq rfl, direct .jne rfl,
      direct .jlt rfl, direct .jle rfl, direct .jge rfl, direct .ldi rfl, direct .ld rfl⟩,
    fun nn b => ⟨alu nn b .add rfl, alu nn b .sub rfl, alu nn b .mul rfl, alu nn b .div rfl, alu nn b .mod rfl,
      alu nn b .inc rfl, alu nn b .dec rfl, alu nn b .cmp rfl, alu nn b .and rfl, alu nn b .not rfl, alu nn b .or rfl,
      alu nn b .xor rfl, alu nn b .shl rfl, alu nn b .shr rfl, alu nn b .st rfl⟩⟩

/-- Settles O13: a word is rejected where the table that its bit 5 selects has no entry. -/
theorem illegalWordsAreRejectedByName : Obligations.IllegalWordsAreRejectedByName := by
  intro ir opa opb
  refine ⟨?alu, ?direct, fun e h => ?names⟩
  case alu => rw [decode_error_iff, decodeWord_eq_error_alu_iff, aluTable_eq_none_iff, extractLsb'_subCode_toNat]
  case direct => rw [decode_error_iff, decodeWord_eq_error_direct_iff, directTable_eq_none_iff]
  case names =>
    rw [decodeWord_error_info (decode_error_iff.mp h)]
    split
    · exact .inl rfl
    · exact .inr rfl

end Sys2Proof
end

section
/-! What a step can do from a Running state (40 R80 to R89, 60 R150 to R156): that there is one, which operand byte a
fault of it comes from, what stopping leaves unchanged, where memory is written, and that the invariant is kept. -/

namespace Sys2Proof.Machine

/-! ### The step from a Running state -/

/-- Every instruction has a next state, a fault's among them (60 R150). -/
theorem exec_total (i : Instr) (s : State) : ∃ t, exec i s = .next t := by
  obtain ⟨t, ht, -⟩ | ⟨r, hr, -⟩ := exec_cases i s
  · exact ⟨t, ht⟩
  · exact ⟨_, hr⟩

/-- The step at a `pc` beyond memory (40 R82). -/
theorem step_of_pc_gt {s : State} (hr : s.run = .running) (hp : 255 < s.pc) :
    step s = raise (.outOfBounds (.mem s.pc)) s := by
  simp only [step, hr, fetchDecode, memRead_of_gt hp]

theorem step_total {s : State} (hr : s.run = .running) : ∃ t, step s = .next t := by
  by_cases hp : s.pc ≤ 255
  · cases hd : decode (s.byteAt s.pc) (candidate 1 s) (candidate 2 s) with
    | error e => exact ⟨_, step_of_reject hr hp (decode_error_iff.mp hd)⟩
    | ok i => exact step_of_decode hr hp hd ▸ exec_total i s
  · exact ⟨_, step_of_pc_gt hr (Nat.lt_of_not_le hp)⟩

/-- A next state of a step: the old one with a fault record, or that of the rule of the instruction at `pc`. -/
theorem step_next_cases {s t : State} (h : step s = .next t) :
    (∃ r, t = { s with run := .faulted r }) ∨
    (s.pc ≤ 255 ∧ ∃ i, decode (s.byteAt s.pc) (candidate 1 s) (candidate 2 s) = .ok i ∧ Completes s i t) := by
  obtain ⟨-, ht⟩ | ⟨-, e, -, ht⟩ | ⟨hp, i, hd, hx⟩ := step_cases h
  · exact .inl ⟨_, ht⟩
  · exact .inl ⟨_, ht⟩
  · obtain hc | ⟨r, ht, -⟩ := exec_next_cases hx
    · exact .inr ⟨hp, i, hd, hc⟩
    · exact .inl ⟨r, ht⟩

/-! ### The candidates that a fault comes from -/

theorem candidate_of_le {k : Nat} {s : State} (h : s.pc + k ≤ 255) : candidate k s = some (s.byteAt (s.pc + k)) := by
  rw [candidate_eq, if_pos h]

theorem candidate_eq_none_iff {k : Nat} {s : State} : candidate k s = none ↔ 255 < s.pc + k := by
  simp [candidate]

theorem le_of_candidate_eq_some {k : Nat} {s : State} {v : Byte} (h : candidate k s = some v) : s.pc + k ≤ 255 := by
  by_contra hp
  rw [candidate_eq_none_iff.mpr (Nat.lt_of_not_le hp)] at h
  cases h

theorem eq_first_candidate_of_decode {ir : Byte} {opa opb c : Candidate} {rest : List Candidate} {i : Instr}
    (h : decode ir opa opb = .ok i) (ho : operands i = c :: rest) : c = opa := by
  have hops := operands_of_decode h
  rw [ho] at hops
  exact (List.cons.inj hops).1

theorem eq_candidates_of_decode {ir : Byte} {opa opb c d : Candidate} {i : Instr}
    (h : decode ir opa opb = .ok i) (ho : operands i = [c, d]) : c = opa ∧ d = opb := by
  have hops := operands_of_decode h
  rw [ho] at hops
  cases hops
  exact ⟨rfl, rfl⟩

theorem regOperandFault_mem_iff {k a : Nat} {c : Candidate} {s : State} :
    RegOperandFault k c s (.outOfBounds (.mem a)) ↔ c = none ∧ a = s.pc + k := by
  simp [RegOperandFault]

theorem regOperandFault_reg_iff {k : Nat} {v : Byte} {c : Candidate} {s : State} :
    RegOperandFault k c s (.outOfBounds (.reg v)) ↔ c = some v ∧ 7 < v.toNat := by
  simp [RegOperandFault]

/-- 60 R154: the addresses that an instruction of a step can report. -/
theorem address_of_fault {s : State} {i : Instr} {a : Nat} (hp : s.pc ≤ 255)
    (hd : decode (s.byteAt s.pc) (candidate 1 s) (candidate 2 s) = .ok i)
    (hf : OperandFault i s (.outOfBounds (.mem a)) ∨ OwnFault s i (.outOfBounds (.mem a))) :
    a = 256 ∧ ((s.pc = 255 ∧ 1 ≤ (operands i).length) ∨ (s.pc = 254 ∧ (operands i).length = 2) ∨
      (s.pc = 254 ∧ ∃ c, i = .call c)) := by
  obtain (⟨c, rest, ho, hr⟩ | ⟨b, c, ho, hr, -⟩) | hown := hf
  · obtain ⟨rfl, rfl⟩ := regOperandFault_mem_iff.mp hr
    have hfirst := candidate_eq_none_iff.mp (eq_first_candidate_of_decode hd ho).symm
    exact ⟨by omega, .inl ⟨by omega, by simp [ho]⟩⟩
  · obtain ⟨rfl, rfl⟩ := regOperandFault_mem_iff.mp hr
    obtain ⟨hb, hc⟩ := eq_candidates_of_decode hd ho
    have hfirst := le_of_candidate_eq_some hb.symm
    have hsecond := candidate_eq_none_iff.mp hc.symm
    exact ⟨by omega, .inr (.inl ⟨by omega, by simp [ho]⟩)⟩
  · cases hown with
    | call r hcall =>
      have hfirst := le_of_candidate_eq_some (eq_first_candidate_of_decode hd rfl).symm
      exact ⟨by omega, .inr (.inr ⟨by omega, _, rfl⟩)⟩

/-- 40 R85, 30 R65: the index that an instruction reports is an operand of it, and LDI's is the first one. -/
theorem index_of_fault {s : State} {i : Instr} {v : Byte}
    (hf : OperandFault i s (.outOfBounds (.reg v)) ∨ OwnFault s i (.outOfBounds (.reg v))) :
    7 < v.toNat ∧ some v ∈ operands i ∧ ∀ opa opb, i = .ldi opa opb → opa = some v := by
  obtain (⟨c, rest, ho, hr⟩ | ⟨b, c, ho, hr, hl⟩) | hown := hf
  · obtain ⟨rfl, hv⟩ := regOperandFault_reg_iff.mp hr
    refine ⟨hv, by simp [ho], fun opa opb hi => ?_⟩
    subst hi
    exact (List.cons.inj ho).1
  · obtain ⟨rfl, hv⟩ := regOperandFault_reg_iff.mp hr
    refine ⟨hv, by simp [ho], fun opa opb hi => ?_⟩
    have hnone := hl opa opb hi
    subst hi hnone
    cases ho
  · cases hown

/-! ### What completing does to `run`, `pc` and memory -/

/-- 43 R140: an instruction that completes leaves `run` alone, or is HLT, which changes nothing else. -/
theorem Completes.run_eq_or_hlt {s t : State} {i : Instr} (h : Completes s i t) :
    t.run = s.run ∨ (i = .hlt ∧ t = { s with run := .halted }) := by
  cases h
  case hlt => exact .inr ⟨rfl, rfl⟩
  case iret => exact .inl (State.popContext_run s)
  case jeq | jne | jge | jle | jlt => exact .inl (by simp [apply_ite State.run])
  all_goals exact .inl rfl

theorem operandCount_le_two (nn : BitVec 2) : operandCount nn ≤ 2 := by
  rw [operandCount_eq_min]
  exact Nat.min_le_right _ _

/-- 40 R87, R88: `pc` advances by at most 3, or is a byte. -/
theorem Completes.pc_le {s t : State} {i : Instr} (h : Completes s i t) : t.pc ≤ max 255 (s.pc + 3) := by
  have hbyte : ∀ v : Byte, v.toNat ≤ max 255 (s.pc + 3) := fun v => le_max_of_le_left (Nat.le_of_lt_succ v.isLt)
  cases h
  case ret | call | jmp => exact hbyte _
  case iret =>
    rw [State.popContext_eq]
    exact hbyte _
  case jeq | jne | jge | jle | jlt =>
    split
    · exact hbyte _
    · exact le_max_of_le_right (Nat.le_succ _)
  case nop | hlt | prn | pra | push | pop | ldi | ld => exact le_max_of_le_right (by simp)
  case add v _ _ | sub v _ _ | mul v _ _ | and v _ _ | or v _ _ | xor v _ _ | shl v _ _ | shr v _ _ | st v _ _
      | div v _ _ _ | mod v _ _ _ | inc v _ | dec v _ | not v _ | cmp v _ _ =>
    exact le_max_of_le_right (Nat.add_le_add_right (Nat.add_le_add_left (operandCount_le_two v.nn) s.pc) 1)

/-- 42, loads and stores summarised: only PUSH and CALL write memory, at the stack pointer they leave. -/
theorem Completes.mem_cases {s t : State} {i : Instr} (h : Completes s i t) :
    t.mem = s.mem ∨ ((∃ c, i = .push c ∨ i = .call c) ∧ t.reg 7 = s.reg 7 - 1 ∧
      ∃ v, t.mem = Memory.set s.mem (t.reg 7).toNat v) := by
  cases h
  case push a => exact .inr ⟨⟨_, .inl rfl⟩, by simp, _, by simp [State.push_eq]; rfl⟩
  case call r => exact .inr ⟨⟨_, .inr rfl⟩, by simp, _, by simp [State.push_eq]; rfl⟩
  case iret => exact .inl (State.popContext_mem s)
  case jeq | jne | jge | jle | jlt => exact .inl (by simp [apply_ite State.mem])
  all_goals exact .inl rfl

/-! ### The statements -/

/-- Settles O20: the step is total on Running states, and a next state comes from one alone. -/
theorem stepExistsExactlyWhenRunning : Obligations.StepExistsExactlyWhenRunning := by
  refine fun s => ⟨⟨step_total, fun ⟨t, h⟩ => running_of_step h⟩, fun hr => ?_, fun r hr => ?_⟩
  · simp only [step, hr]
  · simp only [step, hr]

/-- Settles O25: each clause is one of the operand faults, and an instruction with a fault raises it. -/
theorem operandFaultsArePreciseAndOrdered : Obligations.OperandFaultsArePreciseAndOrdered := by
  intro i s
  have raises : ∀ {r}, OperandFault i s r → Raises i s r := fun h => exec_of_fault (.inl h)
  refine ⟨fun c rest ho => ⟨fun hc => ?_, fun v hc hv => ?_⟩, fun a c ho => ⟨fun hc => ?_, fun v hc hv hl => ?_⟩⟩
  · exact raises (.inl ⟨c, rest, ho, regOperandFault_mem_iff.mpr ⟨hc, rfl⟩⟩)
  · exact raises (.inl ⟨c, rest, ho, regOperandFault_reg_iff.mpr ⟨hc, hv⟩⟩)
  · refine raises (.inr ⟨a, c, ho, regOperandFault_mem_iff.mpr ⟨hc, rfl⟩, fun x y hi => ?_⟩)
    subst hi
    cases ho
    exact hc
  · exact raises (.inr ⟨a, c, ho, regOperandFault_reg_iff.mpr ⟨hc, hv⟩, fun x y hi => absurd hi (hl x y)⟩)

/-- Settles O24: the fetch's fault is the step's own; every other OutOfBounds is a fault of the decoded instruction. -/
theorem outOfBoundsOnlyAsListed : Obligations.OutOfBoundsOnlyAsListed := by
  intro s t hs h
  obtain ⟨hp, rfl⟩ | ⟨hp, e, -, rfl⟩ | ⟨hp, i, hd, hx⟩ := step_cases h
  · refine ⟨fun _ => rfl, fun a ha => ?_, fun v hv => ?_⟩
    · cases ha
      exact .inl ⟨hp, rfl⟩
    · cases hv
  · exact ⟨fun hp' => absurd hp' (Nat.not_lt.mpr hp), nofun, nofun⟩
  · refine ⟨fun hp' => absurd hp' (Nat.not_lt.mpr hp), fun a ha => .inr ?_, fun v hv => ?_⟩
    · obtain ⟨ha256, hplace⟩ := address_of_fault hp hd (exec_faulted_cases hs hx ha).2
      exact ⟨ha256, i, hd, hplace⟩
    · obtain ⟨hv7, hmem, hldi⟩ := index_of_fault (exec_faulted_cases hs hx hv).2
      exact ⟨hv7, hp, i, hd, hmem, hldi⟩

/-- Settles O22: a fault record replaces `run` alone, and of the instructions that complete HLT alone stops. -/
theorem stoppingChangesOnlyRun : Obligations.StoppingChangesOnlyRun := by
  intro s t hs h ht
  obtain ⟨r, rfl⟩ | ⟨-, i, -, hc⟩ := step_next_cases h
  · rfl
  · obtain hrun | ⟨-, rfl⟩ := hc.run_eq_or_hlt
    · exact absurd (hrun.trans hs) ht
    · rfl

/-- Settles O23: the instruction that halts is HLT, whose word is 0x01, and that word decodes to HLT. -/
theorem haltedOnlyByHlt : Obligations.HaltedOnlyByHlt := by
  intro s t hs h
  constructor
  · intro ht
    obtain ⟨r, rfl⟩ | ⟨hp, i, hd, hc⟩ := step_next_cases h
    · cases ht
    · obtain hrun | ⟨rfl, -⟩ := hc.run_eq_or_hlt
      · rw [hrun, hs] at ht
        cases ht
      · exact ⟨hp, (encodeWord_of_decode hd).symm⟩
  · rintro ⟨hp, hb⟩
    have hd : decode (s.byteAt s.pc) (candidate 1 s) (candidate 2 s) = .ok .hlt := by
      rw [hb]
      exact decode_encodeWord (i := .hlt) rfl
    rw [step_of_decode hs hp hd] at h
    cases h
    rfl

/-- Settles O27: what changes a byte is an instruction that completes, by its write at the stack pointer it leaves. -/
theorem onlyPushAndCallWriteMemory : Obligations.OnlyPushAndCallWriteMemory := by
  intro s t _ h a ha
  obtain ⟨r, rfl⟩ | ⟨-, i, hd, hc⟩ := step_next_cases h
  · exact absurd rfl ha
  · obtain hm | ⟨hi, hsp, v, hm⟩ := hc.mem_cases
    · exact absurd (congrArg (Memory.get · a) hm) ha
    · refine ⟨?word, ?address, hsp⟩
      case word =>
        rw [← encodeWord_of_decode hd]
        obtain ⟨c, rfl | rfl⟩ := hi
        · exact .inl rfl
        · exact .inr rfl
      case address =>
        by_contra hne
        refine ha ?_
        rw [State.byteAt, hm, Memory.get_set, if_neg (Ne.symm hne)]
        rfl

/-- Settles O19: the operand bytes lie where the step's candidates are read. -/
theorem stepRunsTheEncodedInstruction : Obligations.StepRunsTheEncodedInstruction := by
  intro s i hr hwf hbytes
  obtain ⟨hp, hword⟩ := hbytes 0 (encodeWord i) rfl
  have hcandidate : ∀ (k : Nat) (v : Byte), (encodeOperands i)[k]? = some v → candidate (k + 1) s = some v := by
    intro k v hk
    obtain ⟨hle, hv⟩ := hbytes (k + 1) v hk
    rw [candidate_of_le hle, hv]
  refine step_of_decode hr hp ?_
  rw [Nat.add_zero] at hword
  rw [hword]
  exact decode_encodeWord_of_wf hwf (hcandidate 0) (hcandidate 1)

/-! ### The invariant -/

theorem mem_wf_of_step {s t : State} (hs : Memory.wf s.mem) (h : step s = .next t) : Memory.wf t.mem := by
  obtain ⟨r, rfl⟩ | ⟨-, i, -, hc⟩ := step_next_cases h
  · exact hs
  · obtain hm | ⟨-, -, v, hm⟩ := hc.mem_cases
    · rwa [hm]
    · rw [hm]
      exact Memory.set_wf hs (t.reg 7).isLt v

/-- 10 R14: a step that completes started within memory, 3 below the bound. -/
theorem pc_le_of_step {s t : State} (hs : s.pc ≤ 258) (h : step s = .next t) : t.pc ≤ 258 := by
  obtain ⟨r, rfl⟩ | ⟨hp, i, -, hc⟩ := step_next_cases h
  · exact hs
  · exact hc.pc_le.trans (max_le (by decide) (Nat.add_le_add_right hp 3))

theorem faultRecordLegal_decodeError {ir : Byte} {e : DecodeReject} (h : decodeWord ir = .error e) :
    FaultRecordLegal (.decodeError e) := by
  have he := decodeWord_error_info h
  split at he
  · subst he
    exact h
  · subst he
    exact h

/-- 60 R151: the record of a step that faults is one of the listed kinds with a true info. -/
theorem faultRecordLegal_of_step {s t : State} {r : FaultRecord} (hp : s.pc ≤ 258) (h : step s = .next t)
    (ht : t.run = .faulted r) : FaultRecordLegal r := by
  obtain ⟨-, haddress, hindex⟩ := outOfBoundsOnlyAsListed s t (running_of_step h) h
  match r with
  | .decodeError e => exact faultRecordLegal_decodeError (decodeWord_of_step_decodeError h ht).2
  | .divideByZero _ => trivial
  | .outOfBounds (.mem a) =>
    obtain ⟨hgt, rfl⟩ | ⟨rfl, -⟩ := haddress a ht
    · exact ⟨hgt, hp⟩
    · exact ⟨le_rfl, by decide⟩
  | .outOfBounds (.reg v) => exact (hindex v ht).1

/-- 43 R140: a step that halts stands at HLT's word, as it did before. -/
theorem haltedAtHlt_of_step {s t : State} (h : step s = .next t) (ht : t.run = .halted) :
    t.pc ≤ 255 ∧ t.byteAt t.pc = 0x01#8 := by
  have hs := running_of_step h
  rw [stoppingChangesOnlyRun s t hs h (by simp [ht])]
  exact (haltedOnlyByHlt s t hs h).mp ht

/-- Settles O26: each clause of the invariant has its own lemma, the first two from the same clause before the step. -/
theorem stepKeepsGoodState : Obligations.StepKeepsGoodState := by
  intro s t ⟨hwf, hpc, _, _⟩ h
  exact ⟨mem_wf_of_step hwf h, pc_le_of_step hpc h, haltedAtHlt_of_step h, fun _ => faultRecordLegal_of_step hpc h⟩

end Sys2Proof.Machine
end

section
/-! The aliases of an ALU word (30 R64, 40 R84): two ALU-routed instructions that differ in their unmatched bits alone
fault alike, and complete in states that differ in the advance alone. -/

namespace Sys2Proof

theorem isAluRouted_aluInstr (o : AluOp) (v : AluBits) (opa opb : Candidate) :
    isAluRouted (aluInstr o v opa opb) = true := by
  cases o <;> rfl

/-- 40 R84: what an ALU word consumes is its format's, whatever its unmatched bits. -/
theorem operands_aluInstr_congr (o : AluOp) (v v' : AluBits) (opa opb : Candidate) :
    operands (aluInstr o v opa opb) = operands (aluInstr o v' opa opb) := by
  cases o <;> rfl

theorem wordCount_aluInstr (o : AluOp) (v : AluBits) (opa opb : Candidate) :
    wordCount (aluInstr o v opa opb) = operandCount v.nn := by
  cases o <;> exact operandCount_aluWord _ v

theorem decode_of_aluTable {ir : Byte} {o : AluOp} (h5 : ir.getLsbD 5 = true)
    (ho : aluTable (ir.extractLsb' 0 4) = some o) (opa opb : Candidate) :
    decode ir opa opb = .ok (aluInstr o (aluBits ir) opa opb) := by
  simp only [decode, decodeWord_of_aluTable h5 ho]

theorem extractLsb'_subCode_congr {ir ir' : Byte} (h : ir.toNat % 16 = ir'.toNat % 16) :
    ir.extractLsb' 0 4 = ir'.extractLsb' 0 4 :=
  BitVec.eq_of_toNat_eq (by rw [extractLsb'_subCode_toNat, extractLsb'_subCode_toNat, h])

end Sys2Proof

namespace Sys2Proof.Machine

theorem OperandFault.with_aluBits {o : AluOp} {v : AluBits} {opa opb : Candidate} {s : State} {r : FaultRecord}
    (h : OperandFault (aluInstr o v opa opb) s r) (v' : AluBits) : OperandFault (aluInstr o v' opa opb) s r := by
  have ho := operands_aluInstr_congr o v v' opa opb
  have hi := isAluRouted_aluInstr o v' opa opb
  obtain ⟨c, rest, hc, hr⟩ | ⟨a, c, hc, hr, -⟩ := h
  · exact .inl ⟨c, rest, ho ▸ hc, hr⟩
  · exact .inr ⟨a, c, ho ▸ hc, hr, fun x y hl => absurd hl (ne_ldi_of_isAluRouted hi x y)⟩

theorem OwnFault.with_aluBits {o : AluOp} {v : AluBits} {opa opb : Candidate} {s : State} {r : FaultRecord}
    (h : OwnFault s (aluInstr o v opa opb) r) (v' : AluBits) : OwnFault s (aluInstr o v' opa opb) r := by
  cases o <;> cases h
  case div a b hb => exact .div v' a b hb
  case mod a b hb => exact .mod v' a b hb

/-- 41 R100: the rule under other unmatched bits does the same and advances by their count. -/
theorem Completes.with_aluBits {o : AluOp} {v : AluBits} {opa opb : Candidate} {s t : State}
    (h : Completes s (aluInstr o v opa opb) t) (v' : AluBits) :
    Completes s (aluInstr o v' opa opb) { t with pc := s.pc + operandCount v'.nn + 1 } := by
  cases o <;> cases h
  case div a b hb => exact .div v' a b hb
  case mod a b hb => exact .mod v' a b hb
  all_goals constructor

/-- 41 R100: `pc` behind a completed ALU operation. -/
theorem Completes.pc_of_aluInstr {o : AluOp} {v : AluBits} {opa opb : Candidate} {s t : State}
    (h : Completes s (aluInstr o v opa opb) t) : t.pc = s.pc + operandCount v.nn + 1 := by
  rw [h.pc_of_advancesSequentially (.inl (isAluRouted_aluInstr o v opa opb)), wordCount_aluInstr]

/-- Settles O17: in whichever way an instruction answers, by its rule or by a fault, its aliases answer too. -/
theorem aliasesDifferOnlyInTheAdvance : Obligations.AliasesDifferOnlyInTheAdvance := by
  intro ir ir' opa opb i s h5 h5' hcode hd
  obtain ⟨-, o, ho, rfl⟩ | ⟨hf, -⟩ := decode_ok_cases hd
  · have hd' := decode_of_aluTable h5' (extractLsb'_subCode_congr hcode ▸ ho) opa opb
    obtain ⟨t, ht⟩ := exec_total (aluInstr o (aluBits ir) opa opb) s
    obtain hc | ⟨r, rfl, hf⟩ := exec_next_cases ht
    · exact ⟨_, t, _, hd', ht, exec_of_completes (hc.with_aluBits (aluBits ir')), .inr ⟨hc.pc_of_aluInstr, rfl⟩⟩
    · have hf' := hf.imp (·.with_aluBits (aluBits ir')) (·.with_aluBits (aluBits ir'))
      exact ⟨_, _, _, hd', ht, exec_of_fault hf', .inl ⟨r, rfl, rfl⟩⟩
  · cases h5.symm.trans hf

end Sys2Proof.Machine
end

section
/-! Output and flags (10 sections 5 and 7): which instruction emits and which writes FL, and that what no instruction
reads, `out` as a whole and the bits of FL that it does not name, has no effect on anything else. -/

namespace Sys2Proof.Machine

/-! ### Faults depend on registers and `pc` alone -/

theorem OperandFault.congr {i : Instr} {s s' : State} {r : FaultRecord} (hp : s'.pc = s.pc)
    (h : OperandFault i s r) : OperandFault i s' r := by
  simpa only [OperandFault, RegOperandFault, hp] using h

theorem OwnFault.congr {i : Instr} {s s' : State} {r : FaultRecord} (hx : s'.x = s.x) (hp : s'.pc = s.pc)
    (h : OwnFault s i r) : OwnFault s' i r := by
  have hreg : ∀ j, s'.reg j = s.reg j := fun j => by simp only [State.reg, hx]
  cases h with
  | div v a b hb => exact .div v a b ((hreg b).trans hb)
  | mod v a b hb => exact .mod v a b ((hreg b).trans hb)
  | call r h => exact hp ▸ .call r (hp ▸ h)

theorem exec_of_fault_congr {i : Instr} {s s' : State} {r : FaultRecord} (hx : s'.x = s.x) (hp : s'.pc = s.pc)
    (h : OperandFault i s r ∨ OwnFault s i r) : exec i s' = raise r s' :=
  exec_of_fault (h.imp (·.congr hp) (·.congr hx hp))

/-! ### Output -/

/-- A conditional jump carries `out` along. -/
theorem State.jumpIf_with_out (fires : Bool) (s : State) (v : Byte) (o : List OutEvent) :
    (if fires then State.jump { s with out := o } v else State.advance { s with out := o } 1) =
      { (if fires then s.jump v else s.advance 1) with out := o } := by
  cases fires <;> rfl

theorem State.popContext_with_out (s : State) (o : List OutEvent) :
    State.popContext { s with out := o } = { s.popContext with out := o } := by
  simp only [State.popContext_eq]
  rfl

/-- An instruction that completes is PRN or PRA and appends its event, or it leaves `out` alone and would do the same
with any other (10 R24, R25). -/
theorem Completes.emits_or_silent {s t : State} {i : Instr} (h : Completes s i t) :
    (∃ a k, ((i = .prn (regOp a) ∧ k = .num) ∨ (i = .pra (regOp a) ∧ k = .chr)) ∧
      t = (s.emit k (s.reg a)).advance 1) ∨
    (t.out = s.out ∧ ∀ o, Completes { s with out := o } i { t with out := o }) := by
  cases h
  case prn a => exact .inl ⟨a, _, .inl ⟨rfl, rfl⟩, rfl⟩
  case pra a => exact .inl ⟨a, _, .inr ⟨rfl, rfl⟩, rfl⟩
  case jeq | jne | jge | jle | jlt =>
    refine .inr ⟨by simp [apply_ite State.out], fun o => ?_⟩
    rw [← State.jumpIf_with_out]
    constructor
  case iret =>
    refine .inr ⟨State.popContext_out s, fun o => ?_⟩
    rw [← State.popContext_with_out]
    exact .iret
  case div v a b hb => exact .inr ⟨rfl, fun o => .div v a b hb⟩
  case mod v a b hb => exact .inr ⟨rfl, fun o => .mod v a b hb⟩
  case call r hp => exact .inr ⟨rfl, fun o => .call r hp⟩
  all_goals exact .inr ⟨rfl, fun o => by constructor⟩

/-- An instruction run with another `out` appends the same events and does the same otherwise. -/
theorem exec_with_out {i : Instr} {s t : State} (o : List OutEvent) (h : exec i s = .next t) :
    ∃ es, t.out = s.out ++ es ∧ exec i { s with out := o } = .next { t with out := o ++ es } := by
  obtain hc | ⟨r, rfl, hf⟩ := exec_next_cases h
  · obtain ⟨a, k, hi, rfl⟩ | ⟨hout, hc⟩ := hc.emits_or_silent
    · refine ⟨[⟨k, s.reg a⟩], rfl, exec_of_completes ?_⟩
      obtain ⟨rfl, rfl⟩ | ⟨rfl, rfl⟩ := hi
      · exact .prn a
      · exact .pra a
    · exact ⟨[], by simp [hout], by simpa using exec_of_completes (hc o)⟩
  · refine ⟨[], by simp, ?_⟩
    rw [List.append_nil]
    exact exec_of_fault_congr (s := s) rfl rfl hf

/-- Settles O28: a step that completes no instruction leaves `out` alone, and PRN and PRA are known by their word. -/
theorem onlyPrnAndPraEmit : Obligations.OnlyPrnAndPraEmit := by
  intro s t _ h
  obtain ⟨r, rfl⟩ | ⟨-, i, hd, hc⟩ := step_next_cases h
  · exact .inl rfl
  · rw [← encodeWord_of_decode hd]
    obtain ⟨a, k, ⟨rfl, rfl⟩ | ⟨rfl, rfl⟩, rfl⟩ | ⟨hout, -⟩ := hc.emits_or_silent
    · exact .inr (.inl ⟨a, rfl, rfl⟩)
    · exact .inr (.inr ⟨a, rfl, rfl⟩)
    · exact .inl hout

/-- Settles O29: fetch and decoding read `pc` and memory alone, and the instruction is run with the other `out`. -/
theorem outputIsNeverRead : Obligations.OutputIsNeverRead := by
  intro s t o h
  have hs : s.run = .running := running_of_step h
  obtain ⟨hp, rfl⟩ | ⟨hp, e, he, rfl⟩ | ⟨hp, i, hd, hx⟩ := step_cases h
  · refine ⟨[], by simp, ?_⟩
    rw [List.append_nil]
    exact step_of_pc_gt (s := { s with out := o }) hs hp
  · refine ⟨[], by simp, ?_⟩
    rw [List.append_nil]
    exact step_of_reject (s := { s with out := o }) hs hp he
  · rw [step_of_decode (s := { s with out := o }) hs hp hd]
    exact exec_with_out o hx

/-! ### Flags: who writes them -/

theorem compareFlags_cases (p q : Byte) :
    compareFlags p q = 0x01#8 ∨ compareFlags p q = 0x02#8 ∨ compareFlags p q = 0x04#8 := by
  unfold compareFlags
  split
  · exact .inl rfl
  · split
    · exact .inr (.inl rfl)
    · exact .inr (.inr rfl)

/-- 10 R16: CMP and IRET alone write FL. -/
theorem Completes.fl_cases {s t : State} {i : Instr} (h : Completes s i t) :
    t.fl = s.fl ∨ (∃ v a b, i = .cmp v (regOp a) (regOp b) ∧ t.fl = compareFlags (s.reg a) (s.reg b)) ∨ i = .iret := by
  cases h
  case cmp v a b => exact .inr (.inl ⟨v, a, b, rfl, rfl⟩)
  case iret => exact .inr (.inr rfl)
  case jeq | jne | jge | jle | jlt => exact .inl (by simp [apply_ite State.fl])
  all_goals exact .inl rfl

/-- A byte of the stack by its number of places from the top, the address modulo 256 (20 R49). -/
theorem State.stackByte_ofNat (s : State) (k : Nat) :
    s.stackByte (BitVec.ofNat 8 k) = s.byteAt (((s.reg 7).toNat + k) % 256) := by
  simp [State.stackByte]

/-! ### Flags: who reads them -/

/-- A conditional jump carries FL along, its condition given. -/
theorem State.jumpIf_with_fl (fires : Bool) (s : State) (v f : Byte) :
    (if fires then State.jump { s with fl := f } v else State.advance { s with fl := f } 1) =
      { (if fires then s.jump v else s.advance 1) with fl := f } := by
  cases fires <;> rfl

/-- IRET replaces the whole of FL. -/
theorem State.popContext_with_fl (s : State) (f : Byte) :
    State.popContext { s with fl := f } = { s.popContext with fl := s.stackByte 7 } := by
  simp only [State.popContext_eq]
  rfl

/-- A jump whose condition a mask changes reads the bits of the mask. -/
theorem readsFlag_of_completes {mk : Candidate → Instr} {fires : Byte → Bool} {mask : Byte}
    (hc : ∀ r (s : State), Completes s (mk (regOp r)) (if fires s.fl then s.jump (s.reg r) else s.advance 1))
    (hne : fires mask ≠ fires 0x00#8) : ReadsFlag mk mask := by
  intro r s htarget
  refine ⟨_, _, exec_of_completes (hc r _), exec_of_completes (hc r _), ?_⟩
  cases h0 : fires 0x00#8 <;> cases hm : fires mask
  · exact absurd (hm.trans h0.symm) hne
  · exact htarget.symm
  · exact htarget
  · exact absurd (hm.trans h0.symm) hne

/-- An instruction that completes does so with any FL that agrees in the bits it reads, and leaves all but FL alike. -/
theorem Completes.with_fl {s t : State} {i : Instr} {f : Byte} (h : Completes s i t)
    (he : ∀ a, i = .jeq a ∨ i = .jne a → f.getLsbD 0 = s.fl.getLsbD 0)
    (hge : ∀ a, i = .jge a → f.getLsbD 0 = s.fl.getLsbD 0 ∧ f.getLsbD 1 = s.fl.getLsbD 1)
    (hle : ∀ a, i = .jle a → f.getLsbD 0 = s.fl.getLsbD 0 ∧ f.getLsbD 2 = s.fl.getLsbD 2)
    (hlt : ∀ a, i = .jlt a → f.getLsbD 2 = s.fl.getLsbD 2) :
    ∃ f', Completes { s with fl := f } i { t with fl := f' } := by
  cases h
  case jeq a =>
    have hf : jeqFires s.fl = jeqFires f := (he _ (.inl rfl)).symm
    exact ⟨f, State.jumpIf_with_fl _ s _ f ▸ hf ▸ .jeq a⟩
  case jne a =>
    have hf : jneFires f = jneFires s.fl := congrArg (!·) (he _ (.inr rfl))
    exact ⟨f, State.jumpIf_with_fl _ s _ f ▸ hf ▸ .jne a⟩
  case jge a =>
    have hf : jgeFires f = jgeFires s.fl := congrArg₂ (· || ·) (hge _ rfl).1 (hge _ rfl).2
    exact ⟨f, State.jumpIf_with_fl _ s _ f ▸ hf ▸ .jge a⟩
  case jle a =>
    have hf : jleFires f = jleFires s.fl := congrArg₂ (· || ·) (hle _ rfl).1 (hle _ rfl).2
    exact ⟨f, State.jumpIf_with_fl _ s _ f ▸ hf ▸ .jle a⟩
  case jlt a =>
    have hf : jltFires f = jltFires s.fl := hlt _ rfl
    exact ⟨f, State.jumpIf_with_fl _ s _ f ▸ hf ▸ .jlt a⟩
  case iret =>
    refine ⟨s.stackByte 7, ?_⟩
    rw [← State.popContext_with_fl s f]
    exact .iret
  case cmp v a b => exact ⟨_, .cmp v a b⟩
  case div v a b hb => exact ⟨f, .div v a b hb⟩
  case mod v a b hb => exact ⟨f, .mod v a b hb⟩
  case call r hp => exact ⟨f, .call r hp⟩
  all_goals exact ⟨f, by constructor⟩

/-- Settles O30: the writers by their rules, each reader's condition under its mask, and the rest by the rule with the
other FL; a fault leaves FL alone and depends on registers and `pc` alone. -/
theorem flagsHaveTwoWritersAndFiveReaders : Obligations.FlagsHaveTwoWritersAndFiveReaders := by
  refine ⟨fun i s t h hne => ?writers, fun v a b s t h => ?cmp, fun s t h => ?iret, ?readers,
    fun i s t f h he hge hle hlt => ?others⟩
  case writers =>
    obtain hc | ⟨r, rfl, -⟩ := exec_next_cases h
    · obtain hfl | ⟨v, a, b, rfl, hfl⟩ | hi := hc.fl_cases
      · exact absurd hfl hne
      · exact .inl ⟨v, _, _, rfl, hfl ▸ compareFlags_cases _ _⟩
      · exact .inr hi
    · exact absurd rfl hne
  case cmp =>
    cases (exec_of_completes (.cmp v a b)).symm.trans h
    exact compareFlags_cases _ _
  case iret =>
    cases (exec_of_completes .iret).symm.trans h
    rw [State.popContext_eq]
    exact State.stackByte_ofNat s 7
  case readers =>
    have eq {mask} := readsFlag_of_completes (mask := mask) (fun r _ => .jeq r)
    have ne {mask} := readsFlag_of_completes (mask := mask) (fun r _ => .jne r)
    have ge {mask} := readsFlag_of_completes (mask := mask) (fun r _ => .jge r)
    have le {mask} := readsFlag_of_completes (mask := mask) (fun r _ => .jle r)
    have lt {mask} := readsFlag_of_completes (mask := mask) (fun r _ => .jlt r)
    exact ⟨eq (by decide), ne (by decide), ge (by decide), ge (by decide), le (by decide), le (by decide),
      lt (by decide)⟩
  case others =>
    obtain hc | ⟨r, rfl, hf⟩ := exec_next_cases h
    · obtain ⟨f', hc'⟩ := hc.with_fl he hge hle hlt
      exact ⟨f', exec_of_completes hc'⟩
    · exact ⟨f, exec_of_fault_congr (s := s) rfl rfl hf⟩

end Sys2Proof.Machine
end

section
/-! Memory in its canonical form, the load port, reset and launch (10 sections 2, 7 and 8, 70 sections 1 and 2). -/

namespace Sys2Proof.Machine

/-! ### The canonical form -/

theorem Memory.wf_tail {c : Host.Cell} {m : Memory} (h : Memory.wf (c :: m)) : Memory.wf m :=
  ⟨h.1.tail, fun d hd => h.2 d (List.mem_cons_of_mem c hd)⟩

/-- The cells of a memory in canonical form are the addresses that do not read as the background, each with its byte. -/
theorem Memory.mem_iff_get {m : Memory} (hm : Memory.wf m) (c : Host.Cell) :
    c ∈ m ↔ c.2 ≠ Config.memBackground ∧ Memory.get m c.1 = c.2 := by
  induction m with
  | nil => simp [Memory.get, eq_comm]
  | cons d m ih =>
    have hd : d.2 ≠ Config.memBackground := (hm.2 d List.mem_cons_self).2
    have hlt : ∀ e ∈ m, d.1 < e.1 := (List.pairwise_cons.mp hm.1).1
    by_cases hcd : c.1 = d.1
    · have hnot : c ∉ m := fun hc => absurd (hlt c hc) (by omega)
      rw [Memory.get, if_pos hcd, List.mem_cons, or_iff_left hnot]
      constructor
      · rintro rfl
        exact ⟨hd, rfl⟩
      · rintro ⟨-, h⟩
        exact Prod.ext hcd h.symm
    · have hne : c ≠ d := fun h => hcd (congrArg Prod.fst h)
      rw [Memory.get, if_neg hcd, List.mem_cons, or_iff_right hne]
      exact ih (Memory.wf_tail hm)

/-- Settles O9: memories that read alike have the same cells, and those fix a list in strictly rising order. -/
theorem equalContentsAreEqualMemories : Obligations.EqualContentsAreEqualMemories := by
  intro m m' hm hm' hget
  have hirrefl : Std.Irrefl fun c d : Host.Cell => c.1 < d.1 := ⟨fun c => lt_irrefl c.1⟩
  have hantisymm : Std.Antisymm fun c d : Host.Cell => c.1 < d.1 := ⟨fun c d h h' => absurd h (lt_asymm h')⟩
  refine hm.1.eq_of_mem_iff hm'.1 fun c => ?_
  rw [Memory.mem_iff_get hm, Memory.mem_iff_get hm', hget]

/-! ### The load port -/

/-- 10 R26: memory after a load, the bytes from its address on and what was there elsewhere. -/
theorem loadBytes_byteAt (bytes : List Byte) (a : Nat) (s : State) (k : Nat) :
    (loadBytes bytes a s).byteAt k = if k < a then s.byteAt k else bytes[k - a]?.getD (s.byteAt k) := by
  induction bytes generalizing a s with
  | nil => simp [loadBytes]
  | cons v vs ih =>
    rw [loadBytes, ih, State.setByte_byteAt]
    obtain hlt | rfl | hgt := lt_trichotomy k a
    · rw [if_pos hlt, if_pos (by omega), if_neg (by omega)]
    · simp
    · obtain ⟨j, rfl⟩ := Nat.exists_eq_add_of_lt hgt
      rw [if_neg (by omega), if_neg (by omega), if_neg (by omega), show a + j + 1 - (a + 1) = j by omega,
        show a + j + 1 - a = j + 1 by omega, List.getElem?_cons_succ]

/-- Settles O3: where the load is accepted, memory is as above and nothing else changes. -/
theorem loadWritesItsBytesOnly : Obligations.LoadWritesItsBytesOnly := by
  intro bytes address s
  constructor
  · intro hle
    refine ⟨_, if_neg (Nat.not_lt.mpr hle), fun k v hk => ?inside, fun a ha => ?outside, ?rest⟩
    case inside => simp [loadBytes_byteAt, hk]
    case outside =>
      rw [loadBytes_byteAt]
      split
      · rfl
      · rw [List.getElem?_eq_none (by omega), Option.getD_none]
    case rest =>
      rw [loadBytes_eq_self_but_mem]
      exact ⟨rfl, rfl, rfl, rfl, rfl⟩
  · intro hgt
    exact if_pos hgt

/-! ### Reset and launch -/

/-- The reset state with any memory in canonical form meets the invariant. -/
theorem goodState_reset_with_mem {m : Memory} (hm : Memory.wf m) : GoodState { State.reset with mem := m } :=
  ⟨hm, Nat.zero_le 258, nofun, nofun⟩

/-- Settles O2: reset's own memory is in canonical form. -/
theorem goodStateAtReset : Obligations.GoodStateAtReset :=
  goodState_reset_with_mem State.reset_wf

/-- Settles O1: each value is the constant of reset's definition; no cell is listed. -/
theorem resetLeavesTheStatedValues : Obligations.ResetLeavesTheStatedValues := by
  intro s
  have hreg : ∀ i : RegIndex, i ≠ 7 → State.reset.reg i = 0x00#8 := by decide
  exact ⟨fun _ => rfl, hreg, rfl, rfl, rfl, rfl, rfl⟩

/-- Settles O5: every load of a launch keeps memory canonical and leaves the rest as reset left it. -/
theorem launchIsResetButForMemory : Obligations.LaunchIsResetButForMemory := by
  intro loads s h
  have heq := launch_eq_reset_but_mem h
  have hwf : Memory.wf s.mem := loadAll_keeps (P := fun s => Memory.wf s.mem) loadBytes_wf State.reset_wf h
  exact ⟨heq, heq ▸ goodState_reset_with_mem hwf⟩

/-! ### The unloaded program -/

theorem run_succ_of_next {M : Host.Core} {s t : M.State} (h : M.step s = .next t) (k : Nat) :
    M.run (k + 1) s = M.run k t := by
  simp only [Host.Core.run, h]

theorem run_add_of_next {M : Host.Core} {m : Nat} {s t : M.State} (h : M.run m s = .next t) (n : Nat) :
    M.run (m + n) s = M.run n t := by
  induction m generalizing s with
  | zero =>
    cases h
    rw [Nat.zero_add]
  | succ m ih =>
    cases hs : M.step s with
    | next u =>
      rw [run_succ_of_next hs] at h
      rw [Nat.succ_add, run_succ_of_next hs, ih h]
    | fault r => simp [Host.Core.run, hs] at h
    | refused r => simp [Host.Core.run, hs] at h

/-- One more step at the end of a run. -/
theorem run_core_succ {k : Nat} {s t u : State} (h : (Host.Core.run core k s : Result) = .next t)
    (hstep : step t = .next u) : (Host.Core.run core (k + 1) s : Result) = .next u :=
  (run_add_of_next (M := core) h 1).trans (run_succ_of_next (M := core) (s := t) (t := u) hstep 0)

/-- 70 R174: with nothing loaded the word at every address is NOP. -/
theorem step_reset_with_pc {k : Nat} (hk : k ≤ 255) :
    step { State.reset with pc := k } = .next { State.reset with pc := k + 1 } :=
  step_of_decode (s := { State.reset with pc := k }) (i := .nop) rfl hk (decode_encodeWord (i := .nop) rfl)

/-- Settles O6: a NOP at every address, and the fetch's fault at 256. -/
theorem unloadedProgramWalksOffTheEnd : Obligations.UnloadedProgramWalksOffTheEnd := by
  have walk : ∀ k : Nat, k ≤ 256 →
      (Host.Core.run core k State.reset : Result) = .next { State.reset with pc := k } := by
    intro k hk
    induction k with
    | zero => rfl
    | succ k ih => exact run_core_succ (ih (Nat.le_of_succ_le hk)) (step_reset_with_pc (Nat.le_of_succ_le_succ hk))
  exact ⟨walk, run_core_succ (walk 256 le_rfl) (step_of_pc_gt (s := { State.reset with pc := 256 }) rfl (by decide))⟩

end Sys2Proof.Machine
end

section
/-! The remaining ALU operations (41 sections 2, 3, 5 and 6): the faults of the formats with their whole order, one rule
for the two divisions, the shifts on natural numbers, and CMP. -/

namespace Sys2Proof.Machine

/-! ### The operand faults of a format, in their order (60 R156) -/

theorem faultsOnFirst_of_operands {mk : Candidate → Instr} {rest : List Candidate}
    (ho : ∀ opa, operands (mk opa) = opa :: rest) : FaultsOnFirst mk := by
  intro s
  have faults (opa : Candidate) := (operandFaultsArePreciseAndOrdered (mk opa) s).1 opa rest (ho opa)
  exact ⟨(faults none).1 rfl, fun v hv => (faults (some v)).2 v rfl hv⟩

theorem faultsOnBoth_of_operands {mk : Candidate → Candidate → Instr}
    (ho : ∀ opa opb, operands (mk opa opb) = [opa, opb]) (hl : ∀ opa opb x y, mk opa opb ≠ .ldi x y) :
    FaultsOnBoth mk := by
  refine ⟨fun opb => faultsOnFirst_of_operands fun opa => ho opa opb, fun a s => ?_⟩
  have faults (opb : Candidate) := (operandFaultsArePreciseAndOrdered (mk (regOp a) opb) s).2 a opb (ho _ opb)
  exact ⟨(faults none).1 rfl, fun v hv => (faults (some v)).2 v rfl hv (hl _ _)⟩

/-! ### DIV and MOD -/

/-- A division does f when the byte operation g its rule applies has the value of f, the divisor not zero. -/
theorem divisionOp_of_completes {mk : AluBits → Candidate → Candidate → Instr} {f : Nat → Nat → Nat} {o : DivOp}
    (g : Byte → Byte → Byte) (ho : ∀ v opa opb, operands (mk v opa opb) = [opa, opb])
    (hi : ∀ v opa opb, isAluRouted (mk v opa opb) = true)
    (hc : ∀ v a b (s : State), s.reg b ≠ 0 → Completes s (mk v (regOp a) (regOp b))
      ((s.setReg a (g (s.reg a) (s.reg b))).advance (operandCount v.nn)))
    (hz : ∀ v a b (s : State), s.reg b = 0 → OwnFault s (mk v (regOp a) (regOp b)) (.divideByZero o))
    (hg : ∀ p q : Byte, (g p q).toNat = f p.toNat q.toNat) : DivisionOp mk f o := by
  intro v
  refine ⟨fun a b s hb => ?_, fun a b s hb => exec_of_fault (.inr (hz v a b s hb)),
    faultsOnBoth_of_operands (ho v) fun opa opb => ne_ldi_of_isAluRouted (hi v opa opb)⟩
  rw [← hg]
  exact writesReg_of_completes (hc v a b s hb)

/-- Settles O35: the quotient of two bytes is that of their values. -/
theorem divGivesTheQuotient : Obligations.DivGivesTheQuotient :=
  divisionOp_of_completes (· / ·) (fun _ _ _ => rfl) (fun _ _ _ => rfl) (fun v a b _ => .div v a b)
    (fun v a b _ => .div v a b) fun _ _ => BitVec.toNat_udiv

/-- Settles O36: the remainder of two bytes is that of their values. -/
theorem modGivesTheRemainder : Obligations.ModGivesTheRemainder :=
  divisionOp_of_completes (· % ·) (fun _ _ _ => rfl) (fun _ _ _ => rfl) (fun v a b _ => .mod v a b)
    (fun v a b _ => .mod v a b) fun _ _ => BitVec.toNat_umod

/-! ### Shifts and the register copy -/

/-- 41 R113 on natural numbers. -/
theorem toNat_shiftLeft_byte (p q : Byte) : (p <<< q).toNat = (p.toNat * 2 ^ q.toNat) % 256 := by
  rw [BitVec.shiftLeft_eq', BitVec.toNat_shiftLeft, Nat.shiftLeft_eq]

/-- 41 R114 on natural numbers. -/
theorem toNat_shiftRight_byte (p q : Byte) : (p >>> q).toNat = p.toNat / 2 ^ q.toNat := by
  rw [BitVec.ushiftRight_eq', BitVec.toNat_ushiftRight, Nat.shiftRight_eq_div_pow]

/-- Settles O42: a shift by a byte is a product with, or a quotient by, a power of two, the exponent its whole value. -/
theorem shiftsUseTheWholeAmount : Obligations.ShiftsUseTheWholeAmount :=
  ⟨binaryOp_of_completes (· <<< ·) (fun _ _ _ => rfl) (fun _ _ _ => rfl) (fun v a b _ => .shl v a b)
      toNat_shiftLeft_byte,
    binaryOp_of_completes (· >>> ·) (fun _ _ _ => rfl) (fun _ _ _ => rfl) (fun v a b _ => .shr v a b)
      toNat_shiftRight_byte⟩

/-- Settles O43: ST is the two-register operation that keeps its second value. -/
theorem stCopiesARegister : Obligations.StCopiesARegister :=
  binaryOp_of_completes (fun _ q => q) (fun _ _ _ => rfl) (fun _ _ _ => rfl) (fun v a b _ => .st v a b) fun _ _ => rfl

/-! ### CMP -/

/-! 41 R108: what CMP writes, by the order of the two values. -/

theorem compareFlags_of_eq {p q : Byte} (h : p.toNat = q.toNat) : compareFlags p q = 0x01#8 :=
  if_pos (BitVec.eq_of_toNat_eq h)

theorem compareFlags_of_gt {p q : Byte} (h : p.toNat > q.toNat) : compareFlags p q = 0x02#8 := by
  rw [compareFlags, if_neg (fun heq => h.ne' (congrArg BitVec.toNat heq)), if_pos h]

theorem compareFlags_of_lt {p q : Byte} (h : p.toNat < q.toNat) : compareFlags p q = 0x04#8 := by
  rw [compareFlags, if_neg (fun heq => h.ne (congrArg BitVec.toNat heq)), if_neg h.not_gt]

/-- Settles O39: CMP's rule replaces FL and advances; its faults are those of two register operands. -/
theorem cmpWritesTheUnsignedOrder : Obligations.CmpWritesTheUnsignedOrder := by
  refine fun v => ⟨fun a b s => ?completes, faultsOnBoth_of_operands (fun _ _ => rfl) nofun⟩
  exact ⟨_, exec_of_completes (.cmp v a b), compareFlags_of_eq, compareFlags_of_gt, compareFlags_of_lt, rfl,
    fun _ _ => rfl, fun _ => rfl, rfl, rfl⟩

end Sys2Proof.Machine
end

section
/-! The conditional jumps (43 section 2): one rule for the five, and what the flags that CMP leaves make of their
conditions. -/

namespace Sys2Proof.Machine

/-- A jump that goes by the condition `fires` jumps when p holds of FL, if `fires` decides p. -/
theorem jumpsWhen_of_completes {mk : Candidate → Instr} {fires : Byte → Bool} {p : Byte → Prop}
    (ho : ∀ opa, operands (mk opa) = [opa])
    (hc : ∀ r (s : State), Completes s (mk (regOp r)) (if fires s.fl then s.jump (s.reg r) else s.advance 1))
    (hp : ∀ fl, fires fl = true ↔ p fl) : JumpsWhen mk p := by
  refine ⟨fun r s => ⟨_, exec_of_completes (hc r s), ?_⟩, faultsOnFirst_of_operands ho⟩
  rw [← hp]
  cases fires s.fl
  · exact ⟨nofun, fun _ => rfl, fun _ _ => rfl, fun _ => rfl, rfl, rfl, rfl⟩
  · exact ⟨fun _ => rfl, fun h => absurd rfl h, fun _ _ => rfl, fun _ => rfl, rfl, rfl, rfl⟩

/-- Settles O56: E is bit 0. -/
theorem jeqAndJneTestEqual : Obligations.JeqAndJneTestEqual :=
  ⟨jumpsWhen_of_completes (fun _ => rfl) (fun r _ => .jeq r) fun _ => Iff.rfl,
    jumpsWhen_of_completes (fun _ => rfl) (fun r _ => .jne r) fun _ => iff_of_eq (Bool.not_eq_true' _)⟩

/-- Settles O57: each condition is its bit, or the disjunction of its two. -/
theorem orderJumpsTestTheirBits : Obligations.OrderJumpsTestTheirBits :=
  ⟨jumpsWhen_of_completes (fun _ => rfl) (fun r _ => .jge r) fun _ => Bool.or_eq_true_iff,
    jumpsWhen_of_completes (fun _ => rfl) (fun r _ => .jle r) fun _ => Bool.or_eq_true_iff,
    jumpsWhen_of_completes (fun _ => rfl) (fun r _ => .jlt r) fun _ => Iff.rfl⟩

/-! ### After CMP -/

/-- 43 R138: the conditions on what CMP leaves are the unsigned comparisons. -/
theorem fires_compareFlags (p q : Byte) :
    jeqFires (compareFlags p q) = decide (p.toNat = q.toNat) ∧
    jneFires (compareFlags p q) = decide (p.toNat ≠ q.toNat) ∧
    jgeFires (compareFlags p q) = decide (p.toNat ≥ q.toNat) ∧
    jleFires (compareFlags p q) = decide (p.toNat ≤ q.toNat) ∧
    jltFires (compareFlags p q) = decide (p.toNat < q.toNat) := by
  obtain h | h | h := lt_trichotomy p.toNat q.toNat
  · simp [compareFlags_of_lt h, jeqFires, jneFires, jgeFires, jleFires, jltFires, flagE, flagG, flagL, h, h.ne, h.le]
  · simp [compareFlags_of_eq h, jeqFires, jneFires, jgeFires, jleFires, jltFires, flagE, flagG, flagL, h]
  · simp [compareFlags_of_gt h, jeqFires, jneFires, jgeFires, jleFires, jltFires, flagE, flagG, flagL, h, h.ne', h.le]

/-- A jump whose condition is decided by P, as one change of `pc`. -/
theorem exec_jump_of_fires {mk : Candidate → Instr} {fires : Byte → Bool} {P : Prop} [Decidable P] {t : State}
    (hc : ∀ r (s : State), Completes s (mk (regOp r)) (if fires s.fl then s.jump (s.reg r) else s.advance 1))
    (h : fires t.fl = decide P) (r : RegIndex) :
    exec (mk (regOp r)) t = .next { t with pc := if P then (t.reg r).toNat else t.pc + 2 } := by
  rw [exec_of_completes (hc r t), h]
  by_cases hP : P
  · simp only [hP, decide_true, if_true, State.jump]
  · simp only [hP, decide_false, if_false, State.advance, Bool.false_eq_true]

/-- Settles O58: the state after CMP has its flags and the registers of before. -/
theorem jumpsAfterCmpFollowTheOrder : Obligations.JumpsAfterCmpFollowTheOrder := by
  intro v a b r s
  obtain ⟨t, ht, hfl, hreg⟩ : ∃ t, exec (.cmp v (regOp a) (regOp b)) s = .next t ∧
      t.fl = compareFlags (s.reg a) (s.reg b) ∧ t.reg r = s.reg r := ⟨_, exec_of_completes (.cmp v a b), rfl, rfl⟩
  obtain ⟨heq, hne, hge, hle, hlt⟩ := hfl ▸ fires_compareFlags (s.reg a) (s.reg b)
  refine ⟨t, ht, ?_⟩
  rw [← hreg]
  exact ⟨exec_jump_of_fires (fun r _ => .jeq r) heq r, exec_jump_of_fires (fun r _ => .jne r) hne r,
    exec_jump_of_fires (fun r _ => .jge r) hge r, exec_jump_of_fires (fun r _ => .jle r) hle r,
    exec_jump_of_fires (fun r _ => .jlt r) hlt r⟩

end Sys2Proof.Machine
end

section
/-! Data movement, output, the stack and the transfers that use it (42, 43 sections 1, 3 and 4): the frame of a push,
and each instruction's statement from its rule. -/

namespace Sys2Proof.Machine

/-! ### The frame of a push (20 R48) -/

theorem State.spDown_sp (s : State) : s.spDown.sp = s.reg 7 - 1 := by
  simp

/-- The stack pointer after a decrement, modulo 256 (20 R48). -/
theorem toNat_sub_one (p : Byte) : (p - 1).toNat = (p.toNat + 255) % 256 :=
  toNat_sub_byte p 1

/-- The stack pointer after an increment, modulo 256 (20 R49). -/
theorem toNat_add_one (p : Byte) : (p + 1).toNat = (p.toNat + 1) % 256 :=
  BitVec.toNat_add p 1

/-- Memory after a push: as before, but for the byte at the decremented stack pointer. -/
theorem State.push_byteAt (s : State) (v : State → Byte) (a : Nat) :
    (s.push v).byteAt a = byteWith s (s.reg 7 - 1).toNat (v (s.setReg 7 (s.reg 7 - 1))) a := by
  rw [State.push_eq, State.setByte_byteAt, State.setReg_byteAt]
  exact if_congr eq_comm rfl rfl

theorem State.push_byteAt_slot (s : State) (v : State → Byte) :
    (s.push v).byteAt s.spDown.sp.toNat = v (s.setReg 7 (s.reg 7 - 1)) := by
  rw [State.push_byteAt, State.spDown_sp]
  exact if_pos rfl

theorem State.push_sameMemoryBut (s : State) (v : State → Byte) : SameMemoryBut s.spDown.sp.toNat s (s.push v) := by
  intro a ha
  rw [State.spDown_sp] at ha
  rw [State.push_byteAt]
  exact if_neg ha

theorem State.push_reg_sp (s : State) (v : State → Byte) : (s.push v).reg 7 = s.reg 7 - 1 := by
  rw [State.push_reg, State.setReg_reg_self]

theorem State.push_sameRegsBut (s : State) (v : State → Byte) : SameRegsBut [7] s (s.push v) :=
  State.setReg_sameRegsBut s 7 _

/-! ### Data movement and output -/

/-- Settles O44: NOP's rule is the advance by one; the word 0x00 is NOP's, and 256 is beyond memory. -/
theorem nopOnlyAdvances : Obligations.NopOnlyAdvances := by
  refine ⟨fun s => ⟨_, exec_of_completes .nop, rfl, fun _ _ => rfl, fun _ => rfl, rfl, rfl, rfl⟩,
    fun s hr hp hb => ⟨?_, ?_⟩⟩
  · have hd : decode (s.byteAt s.pc) (candidate 1 s) (candidate 2 s) = .ok .nop := by
      rw [hp, hb]
      exact decode_encodeWord (i := .nop) rfl
    rw [step_of_decode hr hp.le hd, exec_of_completes .nop, State.advance, hp]
  · exact step_of_pc_gt (s := { s with pc := 256 }) hr (Nat.lt_succ_self 255)

/-- Settles O46: LD's rule is a register write, its faults those of two register operands. -/
theorem ldReadsTheAddressedByte : Obligations.LdReadsTheAddressedByte :=
  ⟨fun a b _ => writesReg_of_completes (.ld a b), faultsOnBoth_of_operands (fun _ _ => rfl) nofun⟩

/-- An output instruction appends its event and advances. -/
theorem emits_of_completes {mk : Candidate → Instr} {k : OutKind} (ho : ∀ opa, operands (mk opa) = [opa])
    (hc : ∀ a (s : State), Completes s (mk (regOp a)) ((s.emit k (s.reg a)).advance 1)) : Emits mk k :=
  ⟨fun a s => ⟨_, exec_of_completes (hc a s), rfl, rfl, fun _ _ => rfl, fun _ => rfl, rfl, rfl⟩,
    faultsOnFirst_of_operands ho⟩

/-- Settles O47: PRN and PRA differ in the kind of the event. -/
theorem outputInstructionsEmitOneEvent : Obligations.OutputInstructionsEmitOneEvent :=
  ⟨emits_of_completes (fun _ => rfl) fun a _ => .prn a, emits_of_completes (fun _ => rfl) fun a _ => .pra a⟩

/-! ### PUSH and POP -/

/-- Settles O48: PUSH is the push of its register, read after the decrement, and the advance. -/
theorem pushStoresBelowTheStackPointer : Obligations.PushStoresBelowTheStackPointer := by
  refine ⟨fun a s => ?_, faultsOnFirst_of_operands fun _ => rfl⟩
  have hsp := State.push_reg_sp s fun d => d.reg a
  have hslot := State.push_byteAt_slot s fun d => d.reg a
  refine ⟨_, exec_of_completes (.push a), ?spValue, ?sp, fun ha => ?other, fun ha => ?self,
    State.push_sameMemoryBut s fun d => d.reg a, State.push_sameRegsBut s fun d => d.reg a, rfl, rfl, rfl, rfl⟩
  case spValue =>
    rw [State.advance_reg, hsp]
    exact toNat_sub_one _
  case sp => rw [State.advance_reg, hsp, State.spDown_sp]
  case other => rw [State.advance_byteAt, hslot, State.setReg_reg, if_neg ha.symm]
  case self => rw [State.advance_byteAt, hslot, State.advance_reg, hsp, ha, State.setReg_reg_self]

/-- Settles O49: POP is the load of its register, then the increment of what the stack pointer holds by then. -/
theorem popLoadsThenIncrements : Obligations.PopLoadsThenIncrements := by
  refine ⟨fun a s => ?_, faultsOnFirst_of_operands fun _ => rfl⟩
  refine ⟨_, exec_of_completes (.pop a), fun ha => ⟨?value, ?sp⟩, fun ha => ?self, fun i hi => ?frame, fun _ => rfl,
    rfl, rfl, rfl, rfl⟩
  case value => simp [State.setReg_reg, Ne.symm ha]
  case sp => simp [State.setReg_reg, ha]
  case self => simp [ha]
  case frame =>
    obtain ⟨hia, hi7⟩ : i ≠ a ∧ i ≠ 7 := by simpa using hi
    simp [State.setReg_reg, hia.symm, hi7.symm]

/-- Settles O50: POP finds the stack pointer and the slot as PUSH left them. -/
theorem pushThenPopRoundTrips : Obligations.PushThenPopRoundTrips := by
  intro a s ha
  obtain ⟨t, hpush, -, hsp, hslot, -, hmem, hregs, hpc, hfl, hout, hrun⟩ := pushStoresBelowTheStackPointer.1 a s
  obtain ⟨u, hpop, hload, -, hregs', hmem', hpc', hfl', hout', hrun'⟩ := popLoadsThenIncrements.1 a t
  obtain ⟨hvalue, hsp'⟩ := hload ha
  refine ⟨t, u, hpush, hpop, fun i _ => ?regs, by rw [hpc', hpc], ⟨hfl'.trans hfl, hout'.trans hout, hrun'.trans hrun⟩,
    fun k hk => (hmem' k).trans (hmem k hk)⟩
  case regs =>
    by_cases hia : i = a
    · rw [hia, hvalue, hsp, hslot ha]
    · by_cases hi7 : i = 7
      · subst hi7
        refine BitVec.eq_of_toNat_eq ?_
        rw [hsp', ← toNat_add_one, hsp, State.spDown_sp, BitVec.sub_add_cancel]
      · rw [hregs' i (by simp [hia, hi7]), hregs i (by simp [hi7])]

/-! ### CALL and RET -/

/-- Settles O52: CALL below 254 is the push of pc + 2 and a jump, above it is CALL's own fault. -/
theorem callPushesTheReturnAddress : Obligations.CallPushesTheReturnAddress := by
  refine ⟨fun r s hp => ?completes, fun r s hp => exec_of_fault (.inr (.call r (by omega))),
    faultsOnFirst_of_operands fun _ => rfl⟩
  refine ⟨_, exec_of_completes (.call r (by omega)), ?spValue, ?slot, rfl,
    State.push_sameMemoryBut s fun d => BitVec.ofNat 8 (d.pc + 2),
    State.push_sameRegsBut s fun d => BitVec.ofNat 8 (d.pc + 2), rfl, rfl, rfl⟩
  case spValue =>
    rw [State.jump_reg, State.push_reg_sp]
    exact toNat_sub_one _
  case slot =>
    rw [State.jump_byteAt, State.push_byteAt_slot, BitVec.toNat_ofNat]
    exact Nat.mod_eq_of_lt (by simp only [State.setReg_pc]; omega)

/-- Settles O53: RET's rule is the pop of `pc`. -/
theorem retPopsThePc : Obligations.RetPopsThePc := by
  intro s
  refine ⟨_, exec_of_completes .ret, rfl, ?_, State.setReg_sameRegsBut s 7 _, fun _ => rfl, rfl, rfl, rfl⟩
  rw [State.popPc_reg, State.setReg_reg_self]
  exact toNat_add_one _

/-- Settles O54: RET reads the slot that CALL wrote and undoes its decrement. -/
theorem callThenRetReturns : Obligations.CallThenRetReturns := by
  intro r s t u hp hcall husp hubyte
  obtain ⟨t', hcall', hsp, hslot, -⟩ := callPushesTheReturnAddress.1 r s hp
  cases hcall'.symm.trans hcall
  obtain ⟨w, hret, hpc, hwsp, -⟩ := retPopsThePc u
  have htsp : t.reg 7 = s.spDown.sp := BitVec.eq_of_toNat_eq (by rw [hsp, State.spDown_sp, toNat_sub_one])
  refine ⟨w, hret, ?_, BitVec.eq_of_toNat_eq ?_⟩
  · rw [hpc, husp, hubyte, htsp, hslot]
  · rw [hwsp, ← toNat_add_one, husp, htsp, State.spDown_sp, BitVec.sub_add_cancel]

/-! ### The fetch behind a push (20 section 9) -/

/-- A Running state whose memory reads as that of `s` with one byte replaced fetches from that memory. -/
theorem nextFetchSees_of_byteAt {s t : State} {k : Nat} {v : Byte} (hr : t.run = .running)
    (hb : ∀ a, t.byteAt a = byteWith s k v a) : NextFetchSees s t k v := by
  refine ⟨hr, fun hp => ?_⟩
  simp only [← hb]
  exact stepRunsTheDecodedInstruction t hr hp

/-- Settles O51: the step completes PUSH or CALL, and memory after either is memory after its push. -/
theorem pushedByteIsFetchedNext : Obligations.PushedByteIsFetchedNext := by
  refine ⟨fun a s hr hp hd => ?push, fun r s hr hp hd => ?call⟩
  case push =>
    refine ⟨_, (step_of_decode hr hp hd).trans (exec_of_completes (.push a)), nextFetchSees_of_byteAt hr fun k => ?_⟩
    rw [State.advance_byteAt, State.push_byteAt, State.advance_reg, State.push_reg_sp, State.setReg_reg]
    simp only [eq_comm]
  case call =>
    refine ⟨_, (step_of_decode hr (by omega) hd).trans (exec_of_completes (.call r (by omega))),
      nextFetchSees_of_byteAt hr fun k => ?_⟩
    rw [State.jump_byteAt, State.push_byteAt, State.jump_reg, State.push_reg_sp, State.setReg_pc]

/-! ### IRET and HLT -/

/-- The registers that IRET pops, by their places on the stack (43 R139). -/
theorem State.popContext_reg (s : State) :
    ∀ i : RegIndex, i ≠ 7 → s.popContext.reg i = s.stackByte (BitVec.ofNat 8 (6 - i.val)) := by
  rw [State.popContext_eq]
  intro i hi
  match i with
  | 0 | 1 | 2 | 3 | 4 | 5 => rfl
  | 6 => simp [State.stackByte, State.reg]
  | 7 => exact absurd rfl hi

/-- Settles O59: the nine pops as one update, each byte at its place from the top of the stack. -/
theorem iretPopsNineBytes : Obligations.IretPopsNineBytes := by
  intro s
  refine ⟨_, exec_of_completes .iret, fun i hi => ?regs, ?flags, ?pc, ?sp, State.popContext_byteAt s,
    State.popContext_out s, State.popContext_run s⟩
  case regs => rw [State.popContext_reg s i hi, State.stackByte_ofNat]
  case flags =>
    rw [State.popContext_eq]
    exact State.stackByte_ofNat s 7
  case pc =>
    rw [State.popContext_eq]
    exact congrArg BitVec.toNat (State.stackByte_ofNat s 8)
  case sp =>
    rw [State.popContext_eq]
    exact BitVec.toNat_add (s.reg 7) 9

/-- Settles O60: HLT's rule changes `run` alone, and there is no step from Halted. -/
theorem hltHalts : Obligations.HltHalts := by
  intro s
  have habsorbing := (stepExistsExactlyWhenRunning { s with run := .halted }).2.1 rfl
  exact ⟨_, exec_of_completes .hlt, rfl, rfl, fun _ _ => rfl, fun _ => rfl, rfl, rfl, habsorbing⟩

end Sys2Proof.Machine
end
